-- ==== Sys2Proof/Word.lean ====
section
/-! DEFINITION. The byte, the one data width of the CORE (00_scope.md R12, R13; 10_state.md R20). -/

namespace Sys2Proof

/-- A byte: bits 7 down to 0, read as an unsigned integer in 0..255 (R12). -/
abbrev Byte := BitVec 8

/-- `trunc8(v)`, the least non-negative residue modulo 256 (R13). -/
def trunc8 (v : Nat) : Byte := BitVec.ofNat 8 v

end Sys2Proof
end

