-- ==== Sys2Proof/Config.lean ====
section
/-! DEFINITION. What an implementation of the CORE fixes: the parameters of 00_scope.md R10 that have more than one
value (`PC_ADVANCE_MODE`, `ALU_EXTENSION`, `OPCODE_MAP`), and the sizes that have one. -/

namespace Sys2Proof

/-- `PC_ADVANCE_MODE`, the OPEN choice of what the loop does after CALL and RET (00_scope.md R11,
40_execution_loop.md R86). -/
inductive PcAdvanceMode where
  /-- pc := target + len, the observed behaviour. -/
  | preserve
  /-- pc := target, the conventional behaviour. -/
  | correct
  deriving DecidableEq, Repr, Inhabited

/-- The operations an opcode byte can select, in the order of spec/opcode_table.json: eight of the base set and eight
of the extension (30_encoding.md R63). -/
inductive Opcode where
  | hlt | ret | psh | pop | prn | call | ldi | mul
  | add | sub | cmp | and | or | xor | shl | shr
  deriving DecidableEq, Repr

/-- The instruction formats of 30_encoding.md R62. -/
inductive Format where
  /-- The opcode alone. -/
  | f0
  /-- The opcode and a register index. -/
  | f1r
  /-- The opcode, a register index and an 8-bit literal. -/
  | f2ri
  /-- The opcode and two register indices. -/
  | f2rr
  deriving DecidableEq, Repr

/-- `OPCODE_MAP`: the opcode byte of each instruction (30_encoding.md R63, R64). The source gives no byte values, so the
map is a parameter (93_implementation_defined.md U15); its default is `OpcodeMap.default` in Decode.lean. -/
structure OpcodeMap where
  hlt : Byte
  ret : Byte
  psh : Byte
  pop : Byte
  prn : Byte
  call : Byte
  ldi : Byte
  mul : Byte
  add : Byte
  sub : Byte
  cmp : Byte
  and : Byte
  or : Byte
  xor : Byte
  shl : Byte
  shr : Byte
  deriving DecidableEq, Repr

/-- The parameters that 40_execution_loop.md R91 fixes before a run. A machine carries them in its state and no step
writes them. -/
structure Config where
  pcAdvanceMode : PcAdvanceMode
  aluExtension  : Bool
  opcodeMap     : OpcodeMap
  deriving DecidableEq, Repr

/-- The mode of the machine that `State.reset` describes. The spec leaves it OPEN and gives no default
(93_implementation_defined.md U1), so it has no body: nothing can be proved about which mode it is. DESIGN CHOICE, safe,
log 2. -/
opaque Config.openPcAdvanceMode : PcAdvanceMode

/-- `MEMSIZE`: 256 cells, addresses 0 to 255 (R10). -/
abbrev memSize : Nat := 256

/-- `SP_INDEX`: R7 is the stack pointer (R10, 10_state.md R21). -/
abbrev spIndex : Fin 8 := 7

/-- `SP_RESET` (R10). -/
abbrev spReset : Byte := 0xF4

/-- `PC_RESET` (R10). -/
abbrev pcReset : Nat := 0

end Sys2Proof
end

