-- ==== Sys2Proof/Syntax.lean ====
section
/-! DEFINITION. The instructions of the CORE, one constructor per row of spec/opcode_table.json. An operand is the whole
byte after the opcode, used unchanged (30_encoding.md R66): a register operand is checked by the handler that uses it,
not by the decoder (10_state.md R24). -/

namespace Sys2Proof

inductive Instr where
  /-- Halt (41_machine_control.md R100). -/
  | hlt
  /-- Return from subroutine (45_control_transfer.md R151). -/
  | ret
  /-- Push register `ra` (44_stack.md R132). -/
  | psh (ra : Byte)
  /-- Pop into register `ra` (44_stack.md R133). -/
  | pop (ra : Byte)
  /-- Print register `ra` (42_register_and_output.md R113). -/
  | prn (ra : Byte)
  /-- Call the subroutine whose address register `ra` holds (45_control_transfer.md R150). -/
  | call (ra : Byte)
  /-- Load the literal `imm` into register `ra` (42_register_and_output.md R110). -/
  | ldi (ra imm : Byte)
  /-- Multiply (43_alu.md R122). -/
  | mul (ra rb : Byte)
  /-- Add (46_alu_extension.md R162). -/
  | add (ra rb : Byte)
  /-- Subtract (46_alu_extension.md R163). -/
  | sub (ra rb : Byte)
  /-- Compare (46_alu_extension.md R169). -/
  | cmp (ra rb : Byte)
  /-- Bitwise and (46_alu_extension.md R164). -/
  | and (ra rb : Byte)
  /-- Bitwise inclusive or (46_alu_extension.md R165). -/
  | or (ra rb : Byte)
  /-- Bitwise exclusive or (46_alu_extension.md R166). -/
  | xor (ra rb : Byte)
  /-- Shift left (46_alu_extension.md R167). -/
  | shl (ra rb : Byte)
  /-- Logical shift right (46_alu_extension.md R168). -/
  | shr (ra rb : Byte)
  deriving DecidableEq, Repr

end Sys2Proof
end

