-- ==== Sys2Proof/WellFormed.lean ====
section
/-! DEFINITION. An instruction is well formed when every operand its format takes as a register index names a register
(10_state.md R20, R24). An ill-formed one still decodes, and raises `BadRegister` when it executes. -/

namespace Sys2Proof

/-- The byte is the index of one of R0 to R7. -/
def namesRegister (idx : Byte) : Bool := decide (idx.toNat < 8)

/-- Every register operand of the instruction names a register. An immediate may be any byte (30_encoding.md R66). -/
def Instr.wellFormed : Instr → Bool
  | .hlt => true
  | .ret => true
  | .psh ra => namesRegister ra
  | .pop ra => namesRegister ra
  | .prn ra => namesRegister ra
  | .call ra => namesRegister ra
  | .ldi ra _ => namesRegister ra
  | .mul ra rb => namesRegister ra && namesRegister rb
  | .add ra rb => namesRegister ra && namesRegister rb
  | .sub ra rb => namesRegister ra && namesRegister rb
  | .cmp ra rb => namesRegister ra && namesRegister rb
  | .and ra rb => namesRegister ra && namesRegister rb
  | .or ra rb => namesRegister ra && namesRegister rb
  | .xor ra rb => namesRegister ra && namesRegister rb
  | .shl ra rb => namesRegister ra && namesRegister rb
  | .shr ra rb => namesRegister ra && namesRegister rb

/-- The operand bytes the handler uses as register indices, in the order it checks them (60_exceptions.md R202). -/
def Instr.registerOperands : Instr → List Byte
  | .hlt => []
  | .ret => []
  | .psh ra => [ra]
  | .pop ra => [ra]
  | .prn ra => [ra]
  | .call ra => [ra]
  | .ldi ra _ => [ra]
  | .mul ra rb => [ra, rb]
  | .add ra rb => [ra, rb]
  | .sub ra rb => [ra, rb]
  | .cmp ra rb => [ra, rb]
  | .and ra rb => [ra, rb]
  | .or ra rb => [ra, rb]
  | .xor ra rb => [ra, rb]
  | .shl ra rb => [ra, rb]
  | .shr ra rb => [ra, rb]

/-- The register operand the instruction writes: POP, LDI and the ALU operations have one (44_stack.md R133,
42_register_and_output.md R110, 43_alu.md R120, 46_alu_extension.md R161); CMP has none (R169). -/
def Instr.destination : Instr → Option Byte
  | .hlt => none
  | .ret => none
  | .psh _ => none
  | .pop ra => some ra
  | .prn _ => none
  | .call _ => none
  | .ldi ra _ => some ra
  | .mul ra _ => some ra
  | .add ra _ => some ra
  | .sub ra _ => some ra
  | .cmp _ _ => none
  | .and ra _ => some ra
  | .or ra _ => some ra
  | .xor ra _ => some ra
  | .shl ra _ => some ra
  | .shr ra _ => some ra

/-- The instructions that move SP implicitly (10_state.md R22). -/
def Instr.movesSp : Instr → Bool
  | .hlt => false
  | .ret => true
  | .psh _ => true
  | .pop _ => true
  | .prn _ => false
  | .call _ => true
  | .ldi _ _ => false
  | .mul _ _ => false
  | .add _ _ => false
  | .sub _ _ => false
  | .cmp _ _ => false
  | .and _ _ => false
  | .or _ _ => false
  | .xor _ _ => false
  | .shl _ _ => false
  | .shr _ _ => false

/-- The instructions that jump (45_control_transfer.md R154). -/
def Instr.jumps : Instr → Bool
  | .hlt => false
  | .ret => true
  | .psh _ => false
  | .pop _ => false
  | .prn _ => false
  | .call _ => true
  | .ldi _ _ => false
  | .mul _ _ => false
  | .add _ _ => false
  | .sub _ _ => false
  | .cmp _ _ => false
  | .and _ _ => false
  | .or _ _ => false
  | .xor _ _ => false
  | .shl _ _ => false
  | .shr _ _ => false

end Sys2Proof
end

