-- ==== Sys2Proof/Decode.lean ====
section
/-! DEFINITION. The opcode map, the decoder, total on any bytes and rejecting by name, and the encoder written from the
same tables (30_encoding.md R60 to R70, 40_execution_loop.md R80). -/

namespace Sys2Proof

/-- The default `OPCODE_MAP` (30_encoding.md R63). PRESUMED: the byte values are the spec's general knowledge of LS-8
(92_eei_decisions.md D4), unsafe, log 1. -/
def OpcodeMap.default : OpcodeMap where
  hlt := 0x01
  ret := 0x11
  psh := 0x45
  pop := 0x46
  prn := 0x47
  call := 0x50
  ldi := 0x82
  mul := 0xA2
  add := 0xA0
  sub := 0xA1
  cmp := 0xA7
  and := 0xA8
  or := 0xAA
  xor := 0xAB
  shl := 0xAC
  shr := 0xAD

/-- The parameters of the machine `State.reset` describes: `ALU_EXTENSION` off and the default map (00_scope.md R10),
and the open mode. -/
def Config.default : Config where
  pcAdvanceMode := Config.openPcAdvanceMode
  aluExtension := false
  opcodeMap := OpcodeMap.default

/-- The base instruction set (00_scope.md R3). -/
def Opcode.base : List Opcode := [.hlt, .ret, .psh, .pop, .prn, .call, .ldi, .mul]

/-- The rows that `ALU_EXTENSION` adds (46_alu_extension.md). -/
def Opcode.extension : List Opcode := [.add, .sub, .cmp, .and, .or, .xor, .shl, .shr]

/-- The rows that take part in the lookup (40_execution_loop.md R80). -/
def Config.enabled (c : Config) : List Opcode :=
  if c.aluExtension then Opcode.base ++ Opcode.extension else Opcode.base

/-- The format of each instruction (30_encoding.md R63). -/
def Opcode.format : Opcode → Format
  | .hlt | .ret => .f0
  | .psh | .pop | .prn | .call => .f1r
  | .ldi => .f2ri
  | .mul | .add | .sub | .cmp | .and | .or | .xor | .shl | .shr => .f2rr

/-- `N`, the number of operand bytes of a format (30_encoding.md R62). -/
def Format.operandCount : Format → Nat
  | .f0 => 0
  | .f1r => 1
  | .f2ri => 2
  | .f2rr => 2

/-- The length of an instruction in bytes: its operand count plus 1 (30_encoding.md R60). -/
def Opcode.length (o : Opcode) : Nat := o.format.operandCount + 1

/-- The length an opcode byte encodes: `op[7:6] + 1` (30_encoding.md R60). -/
def opLength (op : Byte) : Nat := (op.extractLsb' 6 2).toNat + 1

/-- The byte the map gives an operation. -/
def OpcodeMap.byteOf (m : OpcodeMap) : Opcode → Byte
  | .hlt => m.hlt
  | .ret => m.ret
  | .psh => m.psh
  | .pop => m.pop
  | .prn => m.prn
  | .call => m.call
  | .ldi => m.ldi
  | .mul => m.mul
  | .add => m.add
  | .sub => m.sub
  | .cmp => m.cmp
  | .and => m.and
  | .or => m.or
  | .xor => m.xor
  | .shl => m.shl
  | .shr => m.shr

/-- The constraints on any `OPCODE_MAP`: the entries in use are pairwise distinct, and each encodes its instruction's
length in bits 7..6 (30_encoding.md R64). -/
def Config.admissible (c : Config) : Bool :=
  decide ((c.enabled.map c.opcodeMap.byteOf).Nodup) &&
    c.enabled.all fun o => opLength (c.opcodeMap.byteOf o) == o.length

/-- The dispatcher's lookup of the whole opcode byte (30_encoding.md R65). In an admissible configuration at most one
entry matches; elsewhere the first does (DESIGN CHOICE, log 10). -/
def Config.lookup (c : Config) (op : Byte) : Option Opcode :=
  c.enabled.find? fun o => c.opcodeMap.byteOf o == op

/-- What one decode reads: the opcode and the two raw operand bytes (00_scope.md R15, 30_encoding.md R61). -/
structure Fetched where
  op : Byte
  a  : Byte
  b  : Byte
  deriving DecidableEq, Repr

/-- Why bytes do not decode. -/
inductive DecodeError where
  /-- The opcode has no entry in the map (30_encoding.md R65, R68). -/
  | unrecognized (op : Byte)
  /-- Fewer than three bytes: the decoder always reads three (30_encoding.md R61). -/
  | truncated
  deriving DecidableEq, Repr

/-- The instruction an operation makes of the two raw operand bytes; the bytes its format does not use are ignored
(30_encoding.md R62, R66, R67). -/
def Opcode.toInstr (o : Opcode) (a b : Byte) : Instr :=
  match o with
  | .hlt => .hlt
  | .ret => .ret
  | .psh => .psh a
  | .pop => .pop a
  | .prn => .prn a
  | .call => .call a
  | .ldi => .ldi a b
  | .mul => .mul a b
  | .add => .add a b
  | .sub => .sub a b
  | .cmp => .cmp a b
  | .and => .and a b
  | .or => .or a b
  | .xor => .xor a b
  | .shl => .shl a b
  | .shr => .shr a b

/-- The decode stage (40_execution_loop.md R80). -/
def decode (c : Config) (w : Fetched) : Except DecodeError Instr :=
  match c.lookup w.op with
  | some o => .ok (o.toInstr w.a w.b)
  | none => .error (.unrecognized w.op)

/-- The decoder on a sequence of bytes. -/
def decodeBytes (c : Config) : List Byte → Except DecodeError Instr
  | op :: a :: b :: _ => decode c ⟨op, a, b⟩
  | _ => .error .truncated

/-- The operation of an instruction. -/
def Instr.opcode : Instr → Opcode
  | .hlt => .hlt
  | .ret => .ret
  | .psh _ => .psh
  | .pop _ => .pop
  | .prn _ => .prn
  | .call _ => .call
  | .ldi _ _ => .ldi
  | .mul _ _ => .mul
  | .add _ _ => .add
  | .sub _ _ => .sub
  | .cmp _ _ => .cmp
  | .and _ _ => .and
  | .or _ _ => .or
  | .xor _ _ => .xor
  | .shl _ _ => .shl
  | .shr _ _ => .shr

/-- The operand bytes of an instruction, in the order they stand in memory (30_encoding.md R62). -/
def Instr.operandBytes : Instr → List Byte
  | .hlt => []
  | .ret => []
  | .psh ra => [ra]
  | .pop ra => [ra]
  | .prn ra => [ra]
  | .call ra => [ra]
  | .ldi ra imm => [ra, imm]
  | .mul ra rb => [ra, rb]
  | .add ra rb => [ra, rb]
  | .sub ra rb => [ra, rb]
  | .cmp ra rb => [ra, rb]
  | .and ra rb => [ra, rb]
  | .or ra rb => [ra, rb]
  | .xor ra rb => [ra, rb]
  | .shl ra rb => [ra, rb]
  | .shr ra rb => [ra, rb]

/-- The bytes of an instruction under an opcode map. -/
def encode (m : OpcodeMap) (i : Instr) : List Byte := m.byteOf i.opcode :: i.operandBytes

/-- The three bytes of a table word: bit 0 is the least significant bit of the first byte, and every bit from `nbits` up
is 0. -/
def tableBytes (nbits w : Nat) : Fetched :=
  let v := w % 2 ^ nbits
  ⟨trunc8 v, trunc8 (v / 256), trunc8 (v / 65536)⟩

/-- The configuration the opcode table is written for: the default map with every row enabled (log 3). -/
def Config.table : Config where
  pcAdvanceMode := Config.openPcAdvanceMode
  aluExtension := true
  opcodeMap := OpcodeMap.default

/-- The instruction the decoder reads from an instruction's table word. -/
def decodeTableWord (nbits w : Nat) : Option Instr :=
  (decode Config.table (tableBytes nbits w)).toOption

end Sys2Proof
end

