-- ==== Sys2Proof/Machine/State.lean ====
section
/-! DEFINITION. The state of the CORE, plain data (10_state.md R34), the reasons a step can stop, and the state after
reset (10_state.md R39). -/

namespace Sys2Proof.Machine

/-- The 256 bytes of memory (10_state.md R32) as a list of cells in one canonical form, `Memory.wf` of Ops.lean: addresses
strictly rising and below 256, and no cell equal to what an unlisted address reads as. -/
abbrev Memory := List Host.Cell

/-- The fatal error conditions of the CORE and their records: the closed enumeration of 60_exceptions.md R200, in its
order. The spec calls them faults; raising one is a state change, `status := Faulted(f)` (R203). -/
inductive FaultRecord where
  /-- A read of pc, pc+1 or pc+2 beyond 255; the first such address. -/
  | outOfRange (addr : Nat)
  /-- The opcode is in no map entry; the opcode, pc and the register snapshot. -/
  | unrecognized (op : Byte) (pc : Nat) (regs : Vector Byte 8)
  /-- A register operand the handler uses is 8 or more; the operand and pc. -/
  | badRegister (idx : Byte) (pc : Nat)
  /-- Listed for completeness and never raised (43_alu.md R123). -/
  | unsupportedAluOp
  deriving DecidableEq, Repr

/-- The run status (10_state.md R28). -/
inductive Status where
  | running
  | halted
  | faulted (f : FaultRecord)
  deriving DecidableEq, Repr

/-- The complete state of the CORE (10_state.md R34), with the parameters of the machine beside it. -/
structure State where
  /-- R0 to R7; R7 is the stack pointer (R20, R21). -/
  regs   : Vector Byte 8
  /-- The program counter, a natural number that does not wrap (R25, R26). -/
  pc     : Nat
  mem    : Memory
  status : Status
  /-- The bytes PRN has emitted, oldest first (R33). -/
  out    : List Byte
  /-- The flags register 0b00000LGE of the extension (46_alu_extension.md R160). -/
  fl     : Byte
  /-- The machine's parameters, which no step writes (00_scope.md R10, R11; log 2). -/
  cfg    : Config
  deriving DecidableEq, Repr

/-- Why a step is not defined. Both reasons are stuck states the spec names: "No step is defined in `Halted` or
`Faulted`" (40_execution_loop.md R90). -/
inductive Fault where
  /-- Raised by `step` alone, in a state whose status is Halted; safe: the spec defines no step there. -/
  | stepWhenHalted
  /-- Raised by `step` alone, in a state whose status is Faulted(f); safe: the spec defines no step there. -/
  | stepWhenFaulted (f : FaultRecord)
  deriving DecidableEq, Repr

/-- What the model refuses. -/
inductive Refusal where
  /-- Reserved for an arm of `exec` whose instruction has no meaning yet; no arm raises it; safe. -/
  | notModelled (mnemonic : String)
  /-- Raised by `Block.loadImage` alone, for an image of more than 256 bytes: "the model refuses it, and no run starts"
  (70_reset_and_hazards.md R224); safe. -/
  | oversizedImage (size : Nat)
  /-- Raised by `Block.loadImage` alone, once the block has been started: the image load is "before the first step only"
  (10_state.md R35); safe. -/
  | imageAfterStart
  /-- Raised by `Block.start` alone, once the block has been started: the start is "once" (10_state.md R35); safe. -/
  | alreadyStarted
  /-- Raised by `Block.step` alone, before the start that "begins stepping" (10_state.md R35); safe. -/
  | notStarted
  deriving DecidableEq, Repr

/-- What a meaning or a step answers. -/
abbrev Result := Host.Outcome State Fault Refusal

/-- The reset state, before an image is loaded (10_state.md R39, 70_reset_and_hazards.md R220). -/
def State.reset : State where
  regs := #v[0, 0, 0, 0, 0, 0, 0, spReset]
  pc := pcReset
  mem := []
  status := .running
  out := []
  fl := 0
  cfg := Config.default

end Sys2Proof.Machine
end

