-- ==== Sys2Proof/Machine/Ops.lean ====
section
/-! DEFINITION. The named operations over memory, registers, the stack and the output port, raising a fault, the fetch,
and the end of a step that every instruction shares. -/

namespace Sys2Proof.Machine

/-- What an address that no cell lists reads as: the reset contents of memory, 0 (10_state.md R32, R39). -/
def Memory.unlisted : Byte := 0

/-- The byte at an address. -/
def Memory.read : Memory → Nat → Byte
  | [], _ => Memory.unlisted
  | (k, v) :: rest, addr => if k = addr then v else Memory.read rest addr

/-- Memory with the byte at an address replaced, keeping the canonical form. -/
def Memory.write : Memory → Nat → Byte → Memory
  | [], addr, v => if v = Memory.unlisted then [] else [(addr, v)]
  | (k, w) :: rest, addr, v =>
    if addr < k then
      if v = Memory.unlisted then (k, w) :: rest else (addr, v) :: (k, w) :: rest
    else if addr = k then
      if v = Memory.unlisted then rest else (k, v) :: rest
    else (k, w) :: Memory.write rest addr v

/-- The cells lie at strictly rising addresses from `lo` up and below 256, and none reads as an unlisted address does. -/
def Memory.wfFrom (lo : Nat) : Memory → Bool
  | [] => true
  | (k, v) :: rest =>
    decide (lo ≤ k) && decide (k < memSize) && decide (v ≠ Memory.unlisted) && Memory.wfFrom (k + 1) rest

/-- The canonical form of memory. -/
def Memory.wf (m : Memory) : Bool := Memory.wfFrom 0 m

/-- `x[i]` (00_scope.md R14). No register is hard-wired (10_state.md R22). -/
def State.reg (s : State) (r : Fin 8) : Byte := s.regs[r.val]

/-- `x[i] <- v` (00_scope.md R14); `v` is already a byte (10_state.md R23). -/
def State.setReg (s : State) (r : Fin 8) (v : Byte) : State := { s with regs := s.regs.set r.val v }

/-- `SP` names `x[7]` (00_scope.md R14). -/
def State.sp (s : State) : Byte := s.reg spIndex

def State.setPc (s : State) (n : Nat) : State := { s with pc := n }

def State.setMem (s : State) (m : Memory) : State := { s with mem := m }

def State.setStatus (s : State) (x : Status) : State := { s with status := x }

def State.setFl (s : State) (v : Byte) : State := { s with fl := v }

/-- `emit(v)`: hand a byte to the output port, which appends it to the trace (10_state.md R33, R37). -/
def emit (v : Byte) (s : State) : State := { s with out := s.out ++ [v] }

/-- The halted flag: `halted = true` is the same as `status = Halted` (10_state.md R27, R34). -/
def State.halted (s : State) : Bool := decide (s.status = .halted)

/-- Raising a fault: `status <- Faulted(f)`, and every other field keeps its value from the start of the step
(60_exceptions.md R203, 40_execution_loop.md R84). There is no vector, saved pc or handler, and no return (R206). -/
def raise (f : FaultRecord) (s : State) : Result := .next (s.setStatus (.faulted f))

/-- `MemRead(addr, 1)` (20_memory.md R40). -/
def memRead (addr : Nat) (s : State) : Except FaultRecord Byte :=
  if addr < memSize then .ok (Memory.read s.mem addr) else .error (.outOfRange addr)

/-- `MemWrite(addr, 1, v)` (20_memory.md R41). -/
def memWrite (addr : Nat) (v : Byte) (s : State) : Except FaultRecord State :=
  if addr < memSize then .ok (s.setMem (Memory.write s.mem addr v)) else .error (.outOfRange addr)

/-- `push(v)`: decrement SP modulo 256, then write `v` at the new SP (44_stack.md R130). -/
def push (v : Byte) (s : State) : Except FaultRecord State :=
  let t := s.setReg spIndex (s.sp - 1)
  memWrite t.sp.toNat v t

/-- `pop()`: read the byte at SP, then increment SP modulo 256 (44_stack.md R131). -/
def pop (s : State) : Except FaultRecord (Byte × State) := do
  let v ← memRead s.sp.toNat s
  return (v, s.setReg spIndex (s.sp + 1))

/-- The three reads of a decode, in order, whatever the instruction's length (30_encoding.md R61). -/
def fetch (s : State) : Except FaultRecord Fetched := do
  let op ← memRead s.pc s
  let a ← memRead (s.pc + 1) s
  let b ← memRead (s.pc + 2) s
  return ⟨op, a, b⟩

/-- What a handler that does not raise tells the loop (40_execution_loop.md R85). -/
inductive HandlerOutcome where
  | advanceBy (n : Nat)
  | jumpTo (t : Byte)
  deriving DecidableEq, Repr

/-- What a handler answers: a fault, or the state it leaves with `pc` as it was, and its outcome. -/
abbrev Handler := Except FaultRecord (State × HandlerOutcome)

/-- The PC advance for an instruction of length `len` at `pc`, computed without wrap (40_execution_loop.md R86, R87). -/
def nextPc (mode : PcAdvanceMode) (pc len : Nat) : HandlerOutcome → Nat
  | .advanceBy n => pc + n
  | .jumpTo t =>
    match mode with
    | .preserve => t.toNat + len
    | .correct => t.toNat

/-- The end of the step of an instruction of length `len` that began in `s`: a fault discards the handler's work, and
otherwise the loop advances pc (40_execution_loop.md R89). -/
def finish (len : Nat) (s : State) : Handler → Result
  | .error f => raise f s
  | .ok (t, o) => .next (t.setPc (nextPc t.cfg.pcAdvanceMode t.pc len o))

end Sys2Proof.Machine
end

