-- ==== Sys2Proof/Machine/Operands.lean ====
section
/-! DEFINITION. The operand forms of 30_encoding.md R66: a register index and an immediate, each one whole byte. -/

namespace Sys2Proof.Machine

/-- A register operand the handler uses: the register it names, or `BadRegister(idx, pc)` when it is 8 or more
(10_state.md R24). UNVERIFIED: the spec's own decision D5, safe, log 6. -/
def regOperand (idx : Byte) (s : State) : Except FaultRecord (Fin 8) :=
  if h : idx.toNat < 8 then .ok ⟨idx.toNat, h⟩ else .error (.badRegister idx s.pc)

/-- An immediate operand: the byte itself, with no extension (30_encoding.md R66). -/
def immOperand (imm : Byte) : Byte := imm

/-- The two register operands of format F2RR, `a` checked before `b` (60_exceptions.md R202). -/
def regOperands (a b : Byte) (s : State) : Except FaultRecord (Fin 8 × Fin 8) := do
  let ra ← regOperand a s
  let rb ← regOperand b s
  return (ra, rb)

end Sys2Proof.Machine
end

