-- ==== Sys2Proof/Machine/Alu.lean ====
section
/-! DEFINITION. The arithmetic unit and MUL (43_alu.md R120 to R124). -/

namespace Sys2Proof.Machine

/-- The operation select of the ALU, a closed set: ADD and MUL, and the extension's operations (43_alu.md R120,
46_alu_extension.md R161). In the base set only MUL is selected (R121). -/
inductive AluOp where
  | add | mul | sub | and | or | xor | shl | shr
  deriving DecidableEq, Repr

/-- What an operation makes of `x[ra]` and `x[rb]`: exact integer arithmetic, then the residue modulo 256 (43_alu.md R120,
R124; 46_alu_extension.md R162 to R168). A shift count is the whole byte. -/
def aluResult (o : AluOp) (x y : Byte) : Byte :=
  match o with
  | .add => trunc8 (x.toNat + y.toNat)
  | .mul => trunc8 (x.toNat * y.toNat)
  | .sub => BitVec.ofInt 8 ((x.toNat : Int) - (y.toNat : Int))
  | .and => x &&& y
  | .or => x ||| y
  | .xor => x ^^^ y
  | .shl => trunc8 (x.toNat * 2 ^ y.toNat)
  | .shr => trunc8 (x.toNat / 2 ^ y.toNat)

/-- `alu(opsel, ra, rb)`: the result goes to `x[ra]` (43_alu.md R120). -/
def alu (o : AluOp) (ra rb : Fin 8) (s : State) : State :=
  s.setReg ra (aluResult o (s.reg ra) (s.reg rb))

/-- The common form of the ALU instructions: both operands are checked, then the ALU writes `x[ra]`
(43_alu.md R122, 46_alu_extension.md R161). -/
def aluHandler (o : AluOp) (a b : Byte) (s : State) : Handler := do
  let (ra, rb) ← regOperands a b s
  return (alu o ra rb s, .advanceBy 3)

/-- MUL (43_alu.md R122). -/
def execMul (ra rb : Byte) (s : State) : Result := finish 3 s (aluHandler .mul ra rb s)

end Sys2Proof.Machine
end

