-- ==== Sys2Proof/Machine/Flags.lean ====
section
/-! DEFINITION. The one flag computation of the CORE: what CMP leaves in `fl` (46_alu_extension.md R160, R169). PRESUMED:
the register and its layout are the spec's general knowledge of LS-8, unsafe, log 4. -/

namespace Sys2Proof.Machine

/-- One flag bit: 1 if the condition holds, else 0. -/
def flagBit (p : Bool) : Byte := if p then 1 else 0

/-- `(L << 2) | (G << 1) | E` of an unsigned comparison; bits 7..3 are 0 (R169). -/
def compareFlags (x y : Byte) : Byte :=
  (flagBit (decide (x.toNat < y.toNat)) <<< 2) ||| (flagBit (decide (x.toNat > y.toNat)) <<< 1)
    ||| flagBit (decide (x.toNat = y.toNat))

end Sys2Proof.Machine
end

