-- ==== Sys2Proof/Machine/AluExtension.lean ====
section
/-! DEFINITION. The optional ALU extension (46_alu_extension.md). Its rows take part in the decoder's lookup only when
`ALU_EXTENSION` is on. PRESUMED: all of it is the spec's general knowledge of LS-8, unsafe, log 4. -/

namespace Sys2Proof.Machine

/-- ADD (46_alu_extension.md R162). -/
def execAdd (ra rb : Byte) (s : State) : Result := finish 3 s (aluHandler .add ra rb s)

/-- SUB (46_alu_extension.md R163). -/
def execSub (ra rb : Byte) (s : State) : Result := finish 3 s (aluHandler .sub ra rb s)

/-- AND (46_alu_extension.md R164). -/
def execAnd (ra rb : Byte) (s : State) : Result := finish 3 s (aluHandler .and ra rb s)

/-- OR (46_alu_extension.md R165). -/
def execOr (ra rb : Byte) (s : State) : Result := finish 3 s (aluHandler .or ra rb s)

/-- XOR (46_alu_extension.md R166). -/
def execXor (ra rb : Byte) (s : State) : Result := finish 3 s (aluHandler .xor ra rb s)

/-- SHL (46_alu_extension.md R167). -/
def execShl (ra rb : Byte) (s : State) : Result := finish 3 s (aluHandler .shl ra rb s)

/-- SHR (46_alu_extension.md R168). -/
def execShr (ra rb : Byte) (s : State) : Result := finish 3 s (aluHandler .shr ra rb s)

/-- CMP: the whole of `fl` is written and no register is (46_alu_extension.md R169). -/
def execCmp (ra rb : Byte) (s : State) : Result :=
  finish 3 s do
    let (r, q) ← regOperands ra rb s
    return (s.setFl (compareFlags (s.reg r) (s.reg q)), .advanceBy 3)

end Sys2Proof.Machine
end

