-- ==== Sys2Proof/Machine/Control.lean ====
section
/-! DEFINITION. Machine control: HLT (41_machine_control.md R100). -/

namespace Sys2Proof.Machine

/-- HLT: the halted flag is set and pc still advances past the instruction (41_machine_control.md R100,
40_execution_loop.md R88). -/
def execHlt (s : State) : Result :=
  finish 1 s (.ok (s.setStatus .halted, .advanceBy 1))

end Sys2Proof.Machine
end

