-- ==== Sys2Proof/Machine/RegisterOutput.lean ====
section
/-! DEFINITION. Register load and output: LDI and PRN (42_register_and_output.md). -/

namespace Sys2Proof.Machine

/-- LDI (42_register_and_output.md R110). -/
def execLdi (ra imm : Byte) (s : State) : Result :=
  finish 3 s do
    let r ← regOperand ra s
    return (s.setReg r (immOperand imm), .advanceBy 3)

/-- PRN (42_register_and_output.md R113). -/
def execPrn (ra : Byte) (s : State) : Result :=
  finish 2 s do
    let r ← regOperand ra s
    return (emit (s.reg r) s, .advanceBy 2)

end Sys2Proof.Machine
end

