-- ==== Sys2Proof/Machine/Stack.lean ====
section
/-! DEFINITION. The stack instructions PSH and POP (44_stack.md R132, R133); the stack engine itself is `push` and `pop` of
Ops.lean. -/

namespace Sys2Proof.Machine

/-- PSH: the register is read before SP changes (44_stack.md R132). -/
def execPsh (ra : Byte) (s : State) : Result :=
  finish 2 s do
    let r ← regOperand ra s
    let t ← push (s.reg r) s
    return (t, .advanceBy 2)

/-- POP: the register is written after SP is incremented, so POP R7 leaves the byte read (44_stack.md R133). -/
def execPop (ra : Byte) (s : State) : Result :=
  finish 2 s do
    let r ← regOperand ra s
    let (v, t) ← pop s
    return (t.setReg r v, .advanceBy 2)

end Sys2Proof.Machine
end

