-- ==== Sys2Proof/Machine/Transfer.lean ====
section
/-! DEFINITION. Control transfer: CALL and RET (45_control_transfer.md R150 to R154). -/

namespace Sys2Proof.Machine

/-- The return address CALL saves, `pc + 2` (45_control_transfer.md R152). UNVERIFIED: the spec's own decision D7, unsafe,
log 8. An executed CALL has pc at most 253, so the byte holds it exactly. -/
def returnAddress (pc : Nat) : Byte := trunc8 (pc + 2)

/-- CALL: push the return address, then read the target (45_control_transfer.md R150; the order is decision D8, log 8). -/
def execCall (ra : Byte) (s : State) : Result :=
  finish 2 s do
    let r ← regOperand ra s
    let t ← push (returnAddress s.pc) s
    return (t, .jumpTo (t.reg r))

/-- RET (45_control_transfer.md R151). -/
def execRet (s : State) : Result :=
  finish 1 s do
    let (v, t) ← pop s
    return (t, .jumpTo v)

end Sys2Proof.Machine
end

