-- ==== Sys2Proof/Machine/Step.lean ====
section
/-! DEFINITION. One step of the execution loop (40_execution_loop.md R89), and the fetch word the host places. -/

namespace Sys2Proof.Machine

/-- Decode and execute what a fetch read (40_execution_loop.md R80, R82, R89). -/
def runFetched (w : Fetched) (s : State) : Result :=
  match decode s.cfg w with
  | .ok i => exec i s
  | .error _ => raise (.unrecognized w.op s.pc s.regs) s

/-- One step: fetch, decode, dispatch, advance; defined only in Running (40_execution_loop.md R89, R90). -/
def step (s : State) : Host.Outcome State Fault Refusal :=
  match s.status with
  | .halted => .fault .stepWhenHalted
  | .faulted f => .fault (.stepWhenFaulted f)
  | .running =>
    match fetch s with
    | .error f => raise f s
    | .ok w => runFetched w s

/-- Is this the byte of an extension row in the default map? -/
def isExtensionByte (op : Byte) : Bool :=
  Opcode.extension.any fun o => OpcodeMap.default.byteOf o == op

/-- The state with a table word's three bytes stored where the next step fetches. The next step must be one (Running, and
pc at most 253, else it goes to the reset value), its opcode is a byte of the default map, and an extension row is in the
lookup only when `ALU_EXTENSION` is on; nothing else changes (log 3). -/
def State.withFetchWord (s : State) (nbits w : Nat) : State :=
  let f := tableBytes nbits w
  let at0 := if s.pc ≤ 253 then s.pc else pcReset
  { s with
    pc := at0
    status := .running
    mem := Memory.write (Memory.write (Memory.write s.mem at0 f.op) (at0 + 1) f.a) (at0 + 2) f.b
    cfg := { s.cfg with
      aluExtension := s.cfg.aluExtension || isExtensionByte f.op
      opcodeMap := OpcodeMap.default } }

end Sys2Proof.Machine
end

