-- ==== Sys2Proof/Machine/Ports.lean ====
section
/-! DEFINITION. The block and its interfaces to the host (10_state.md R35 to R38): image load and start, with when each may
happen, and the host's reads of output, status and trace. No step of the CORE calls any of them. -/

namespace Sys2Proof.Machine

/-- Memory with bytes written at consecutive addresses. -/
def Memory.writeAll : Memory → Nat → List Byte → Memory
  | m, _, [] => m
  | m, addr, v :: rest => Memory.writeAll (Memory.write m addr v) (addr + 1) rest

/-- The effect of an image load: `img[0..n-1]` to `mem[0..n-1]` (70_reset_and_hazards.md R223). -/
def State.withImage (img : List Byte) (s : State) : State := s.setMem (Memory.writeAll s.mem 0 img)

/-- The reset state of a machine whose parameters are named (00_scope.md R11: the mode is a parameter the model takes as an
argument). -/
def State.resetWith (c : Config) : State := { State.reset with cfg := c }

/-- Where a run of the block stands: before the start port has been used, or stepping (10_state.md R35). -/
inductive Phase where
  | beforeStart
  | stepping
  deriving DecidableEq, Repr

/-- The block as the host sees it: the CORE's state, which R34 gives whole, and the phase of the run that the ports of R35
speak of. DESIGN CHOICE, safe, log 17. -/
structure Block where
  phase : Phase
  core  : State
  deriving DecidableEq, Repr

/-- A freshly constructed block: each run has its own (70_reset_and_hazards.md R220). -/
def Block.fresh (c : Config) : Block := ⟨.beforeStart, State.resetWith c⟩

/-- The image load port: before the first step only, at most 256 bytes (10_state.md R35, 70_reset_and_hazards.md R223,
R224). -/
def Block.loadImage (img : List Byte) (b : Block) : Host.Outcome Block Fault Refusal :=
  match b.phase with
  | .beforeStart =>
    if img.length ≤ memSize then .next { b with core := b.core.withImage img }
    else .refused (.oversizedImage img.length)
  | .stepping => .refused .imageAfterStart

/-- The start port: once, beginning to step from the reset state with whatever image was loaded (10_state.md R35). -/
def Block.start (b : Block) : Host.Outcome Block Fault Refusal :=
  match b.phase with
  | .beforeStart => .next { b with phase := .stepping }
  | .stepping => .refused .alreadyStarted

/-- One step of the block: the CORE's step, once it has been started (40_execution_loop.md R90). -/
def Block.step (b : Block) : Host.Outcome Block Fault Refusal :=
  match b.phase with
  | .beforeStart => .refused .notStarted
  | .stepping =>
    match Sys2Proof.Machine.step b.core with
    | .next t => .next { b with core := t }
    | .fault f => .fault f
    | .refused r => .refused r

/-- What can happen at the block's ports, and its own step. -/
inductive BlockMove where
  | loadImage (img : List Byte)
  | start
  | step
  deriving DecidableEq, Repr

/-- The block after one move, or why there is none. -/
def Block.move (m : BlockMove) (b : Block) : Host.Outcome Block Fault Refusal :=
  match m with
  | .loadImage img => b.loadImage img
  | .start => b.start
  | .step => b.step

/-- The block after a sequence of moves, up to the first that is not possible. -/
def Block.moves : List BlockMove → Block → Host.Outcome Block Fault Refusal
  | [], b => .next b
  | m :: rest, b =>
    match b.move m with
    | .next b' => Block.moves rest b'
    | .fault f => .fault f
    | .refused r => .refused r

/-- The status port (10_state.md R38). -/
def statusPort (s : State) : Status := s.status

/-- The host's rendering of one output byte: unsigned decimal digits and a newline (10_state.md R37). -/
def renderByte (v : Byte) : String := Nat.repr v.toNat ++ "\n"

/-- The host's rendering of the output trace (10_state.md R37). -/
def renderOutput (s : State) : String := String.join (s.out.map renderByte)

/-- What the diagnostic trace reads (60_exceptions.md R214). -/
structure TraceView where
  pc    : Nat
  bytes : List (Option Byte)
  regs  : Vector Byte 8
  deriving DecidableEq, Repr

/-- The diagnostic trace: pc, the three bytes at pc, pc+1 and pc+2, and the registers; it changes nothing and raises
nothing (60_exceptions.md R214). An address over 255 shows no byte: DESIGN CHOICE, safe, log 11. -/
def diagnosticRead (s : State) : TraceView where
  pc := s.pc
  bytes := [(memRead s.pc s).toOption, (memRead (s.pc + 1) s).toOption, (memRead (s.pc + 2) s).toOption]
  regs := s.regs

end Sys2Proof.Machine
end

