-- ==== Sys2Proof/Safety.lean ====
section
/-! DEFINITION. The terms claims use about runs: the invariant of the machine, the loop under fuel, the ends of a run. -/

namespace Sys2Proof.Machine

/-- The invariant of the CORE: memory is in its canonical form, pc is at most 257 (10_state.md R26), `fl` holds 0 or exactly
one of E, G, L (46_alu_extension.md R160), and the opcode map meets the constraints of 30_encoding.md R64. -/
structure State.Inv (s : State) : Prop where
  mem_wf     : Memory.wf s.mem = true
  pc_le      : s.pc ≤ 257
  fl_legal   : s.fl = 0 ∨ s.fl = 1 ∨ s.fl = 2 ∨ s.fl = 4
  admissible : s.cfg.admissible = true

/-- The state records a fatal error. -/
def State.Faulted (s : State) : Prop := ∃ f, s.status = .faulted f

/-- What raising a fault leaves, said without the model's own operation: the status alone changes (60_exceptions.md R203). -/
def faultsWith (f : FaultRecord) (s : State) : Result := .next { s with status := .faulted f }

/-- The bytes a decode at pc reads when it lies within memory (30_encoding.md R61). -/
def bytesAtPc (s : State) : Fetched :=
  ⟨Memory.read s.mem s.pc, Memory.read s.mem (s.pc + 1), Memory.read s.mem (s.pc + 2)⟩

/-- The first fault condition a step meets, in the order of 60_exceptions.md R202, read from the state alone. -/
def firstFault (s : State) : Option FaultRecord :=
  if 255 < s.pc then some (.outOfRange s.pc)
  else if 255 < s.pc + 1 then some (.outOfRange (s.pc + 1))
  else if 255 < s.pc + 2 then some (.outOfRange (s.pc + 2))
  else match decode s.cfg (bytesAtPc s) with
    | .error _ => some (.unrecognized (bytesAtPc s).op s.pc s.regs)
    | .ok i => (i.registerOperands.find? fun idx => !namesRegister idx).map fun idx => .badRegister idx s.pc

/-- The loop under fuel: `step` while Running (40_execution_loop.md R90, R92). Running out of fuel leaves the status
Running, which is not an end of the run. -/
def runLoop : Nat → State → State
  | 0, s => s
  | n + 1, s =>
    match step s with
    | .next t => runLoop n t
    | .fault _ => s
    | .refused _ => s

/-- The run from `s` ends, within some number of steps, in `t` (40_execution_loop.md R92). -/
def EndsIn (s t : State) : Prop := ∃ n, runLoop n s = t ∧ t.status ≠ .running

/-- A hang: the status never leaves Running (40_execution_loop.md R92). -/
def Hangs (s : State) : Prop := ∀ n, (runLoop n s).status = .running

/-- A safe run: no number of steps reaches a fatal error. -/
def SafeRun (s : State) : Prop := ∀ n, ¬ (runLoop n s).Faulted

end Sys2Proof.Machine
end

