-- ==== Sys2Proof/Certificates/Slice0/Obligations.lean ====
section
/-! DEFINITION. The statements for the provers, from the numbered rules of spec/. A statement that rests on a decision or a
derivation the spec marks as its own, or on a choice of the model, says so and names it. -/

open Sys2Proof Sys2Proof.Machine

/-! ## Encoding and decoding -/

/-- The constraints on any opcode map, and that the default table meets them with the extension off and on (30_encoding.md
section 2). Clause 1 says what the model's check of a map means. Clauses 2 and 4 name the default bytes, which are the spec's
general knowledge (decisions D4, D13): log 1, and log 4 for the extension's eight rows, of which the source's own constraints do
not speak. -/
def Obligations.OpcodeMapConstraints : Prop :=
  (∀ c : Config, c.admissible = true ↔
    (∀ o ∈ c.enabled, ∀ p ∈ c.enabled, c.opcodeMap.byteOf o = c.opcodeMap.byteOf p → o = p) ∧
      ∀ o ∈ c.enabled, (c.opcodeMap.byteOf o).toNat / 64 = o.format.operandCount) ∧
  (∀ ext : Bool, ({ Config.default with aluExtension := ext } : Config).admissible = true) ∧
  (Opcode.hlt.format.operandCount = 0 ∧ Opcode.ret.format.operandCount = 0 ∧
    Opcode.prn.format.operandCount = 1 ∧ Opcode.psh.format.operandCount = 1 ∧
    Opcode.pop.format.operandCount = 1 ∧ Opcode.call.format.operandCount = 1 ∧
    Opcode.ldi.format.operandCount = 2 ∧ Opcode.mul.format.operandCount = 2) ∧
  (∀ i : Instr, (OpcodeMap.default.byteOf i.opcode).toNat / 64 + 1 = (encode OpcodeMap.default i).length)

/-- 30_encoding.md R63: words of the default table decode to the instructions they stand for. The byte values are the spec's
general knowledge (92_eei_decisions.md D4, D13; log 1, log 4), so this is no rule of the source. -/
def Obligations.DefaultWordsDecode : Prop :=
  decode Config.default ⟨0x01, 0xFF, 0xFF⟩ = .ok .hlt ∧
  decode Config.default ⟨0x45, 0x03, 0x00⟩ = .ok (.psh 3) ∧
  decode Config.default ⟨0x50, 0x01, 0x00⟩ = .ok (.call 1) ∧
  decode Config.default ⟨0x82, 0x07, 0x10⟩ = .ok (.ldi 7 0x10) ∧
  decode Config.default ⟨0xA2, 0x02, 0x03⟩ = .ok (.mul 2 3) ∧
  decode Config.default ⟨0xA0, 0x00, 0x01⟩ = .error (.unrecognized 0xA0) ∧
  decode { Config.default with aluExtension := true } ⟨0xA0, 0x00, 0x01⟩ = .ok (.add 0 1) ∧
  decode { Config.default with aluExtension := true } ⟨0xA7, 0x04, 0x05⟩ = .ok (.cmp 4 5)

/-- Decode and encode agree, for every instruction the configuration enables, every operand byte, and any bytes after it
(30_encoding.md sections 1 to 3). The admissible maps are those of R64; inadmissible ones are no CORE (log 10). -/
def Obligations.DecodeOfEncodeIsIdentity : Prop :=
  ∀ (c : Config) (i : Instr) (x y : Byte) (rest : List Byte),
    c.admissible = true → i.opcode ∈ c.enabled →
      decodeBytes c (encode c.opcodeMap i ++ x :: y :: rest) = .ok i

/-- The other direction: the bytes that decoded are the instruction's encoding, up to the length the opcode's top bits give
(30_encoding.md sections 1 to 3). -/
def Obligations.EncodeOfDecodeIsTheBytesRead : Prop :=
  ∀ (c : Config) (w : Fetched) (i : Instr), c.admissible = true → decode c w = .ok i →
    encode c.opcodeMap i = [w.op, w.a, w.b].take (w.op.toNat / 64 + 1)

/-- 30_encoding.md R60: an instruction starts with its opcode byte, bits 7 and 6 count the operand bytes after it, the length
is one more, and the decoder matches the whole byte. -/
def Obligations.TopBitsGiveOperandCount : Prop :=
  ∀ (c : Config) (w : Fetched) (i : Instr), c.admissible = true → decode c w = .ok i →
    encode c.opcodeMap i = w.op :: i.operandBytes ∧
    i.operandBytes.length = w.op.toNat / 64 ∧
    (encode c.opcodeMap i).length = w.op.toNat / 64 + 1 ∧
    ∀ (w' : Fetched) (i' : Instr), decode c w' = .ok i' → i'.opcode = i.opcode → w'.op = w.op

/-- 30_encoding.md section 4: a byte in no entry is illegal and raises Unrecognized; with the default map and the extension off
that is 248 bytes, among them 0x00, every 0b11xxxxxx byte and the eight extension bytes; no byte outside the map has a
meaning. The byte values are the spec's general knowledge (log 1, log 4). -/
def Obligations.IllegalOpcodes : Prop :=
  (∀ (c : Config) (w : Fetched), (∀ o ∈ c.enabled, c.opcodeMap.byteOf o ≠ w.op) →
    decode c w = .error (.unrecognized w.op)) ∧
  (∀ (c : Config) (w : Fetched) (i : Instr), decode c w = .ok i →
    ∃ o ∈ c.enabled, c.opcodeMap.byteOf o = w.op) ∧
  (∀ (s : State) (e : DecodeError), s.status = .running → s.pc ≤ 253 → decode s.cfg (bytesAtPc s) = .error e →
    step s = faultsWith (.unrecognized (bytesAtPc s).op s.pc s.regs) s) ∧
  ((List.range 256).filter fun n => (Config.default.lookup (BitVec.ofNat 8 n)).isNone).length = 248 ∧
  (∀ a b : Byte, decode Config.default ⟨0x00, a, b⟩ = .error (.unrecognized 0x00)) ∧
  (∀ op a b : Byte, 0xC0 ≤ op.toNat → decode Config.default ⟨op, a, b⟩ = .error (.unrecognized op)) ∧
  (∀ op ∈ [0xA0, 0xA1, 0xA7, 0xA8, 0xAA, 0xAB, 0xAC, (0xAD : Byte)], ∀ a b : Byte,
    decode Config.default ⟨op, a, b⟩ = .error (.unrecognized op))

/-- 30_encoding.md R65 and 40_execution_loop.md R82: the whole opcode byte is looked up; the one matching entry's instruction
runs, and with none the step ends in Unrecognized(op, pc, reg), no handler runs and pc does not advance. -/
def Obligations.DispatchByWholeOpcode : Prop :=
  ∀ s : State, s.status = .running → s.pc ≤ 253 →
    (∀ o ∈ s.cfg.enabled, s.cfg.opcodeMap.byteOf o = (bytesAtPc s).op →
      (∀ p ∈ s.cfg.enabled, s.cfg.opcodeMap.byteOf p = (bytesAtPc s).op → p = o) →
        step s = exec (o.toInstr (bytesAtPc s).a (bytesAtPc s).b) s) ∧
    ((∀ o ∈ s.cfg.enabled, s.cfg.opcodeMap.byteOf o ≠ (bytesAtPc s).op) →
      step s = faultsWith (.unrecognized (bytesAtPc s).op s.pc s.regs) s)

/-- 30_encoding.md section 3, which the spec decides as D23: bytes a format does not use never change what decodes. -/
def Obligations.UnusedOperandBytesAreIgnored : Prop :=
  ∀ (c : Config) (op a b a' b' : Byte) (i : Instr), decode c ⟨op, a, b⟩ = .ok i →
    (i.opcode.format = .f0 → decode c ⟨op, a', b'⟩ = .ok i) ∧
    (i.opcode.format = .f1r → decode c ⟨op, a, b'⟩ = .ok i)

/-! ## The step -/

/-- When the bytes at pc decode to an instruction, the step is that instruction's meaning at that state
(40_execution_loop.md section 4). On this hardware the step adds nothing around it: the meaning holds the pc advance. -/
def Obligations.StepRunsDecodedInstruction : Prop :=
  ∀ (s : State) (i : Instr), s.status = .running → s.pc ≤ 253 → decode s.cfg (bytesAtPc s) = .ok i →
    step s = exec i s

/-- 40_execution_loop.md section 1, which the spec derives: a decode at 254 or above raises OutOfRange of the first address
read beyond 255, whatever byte stands at pc. -/
def Obligations.DecodeBeyondMemoryFaults : Prop :=
  ∀ s : State, s.status = .running →
    (s.pc = 254 → step s = faultsWith (.outOfRange 256) s) ∧
    (s.pc = 255 → step s = faultsWith (.outOfRange 256) s) ∧
    (256 ≤ s.pc → step s = faultsWith (.outOfRange s.pc) s)

/-- 40_execution_loop.md R90: the loop applies the step while the status is Running, from every such state a step is defined,
and none is defined in Halted or Faulted. -/
def Obligations.LoopStepsExactlyWhileRunning : Prop :=
  (∀ s : State, s.status = .running → ∃ t, step s = .next t ∧ ∀ n, runLoop (n + 1) s = runLoop n t) ∧
  (∀ s : State, s.status ≠ .running → (∀ t, step s ≠ .next t) ∧ ∀ n, runLoop n s = s)

/-- A step asked for in Halted or Faulted stops under a name of its own. The spec says only that no step is defined there
(40_execution_loop.md section 4); the names are the model's choice, log 5. -/
def Obligations.StepAfterTheEndStopsByName : Prop :=
  (∀ s : State, s.status = .halted → step s = .fault .stepWhenHalted) ∧
  (∀ (s : State) (f : FaultRecord), s.status = .faulted f → step s = .fault (.stepWhenFaulted f))

/-- A run either hangs, with the status Running for ever, or ends, and then in exactly one state (40_execution_loop.md section 5,
the spec's decision D17). -/
def Obligations.RunHangsOrEndsInOneState : Prop :=
  ∀ s : State, (Hangs s ∧ ∀ t, ¬ EndsIn s t) ∨ (¬ Hangs s ∧ ∃ t, EndsIn s t ∧ ∀ u, EndsIn s u → u = t)

/-- Faults are precise: a step that raises changes the status alone (60_exceptions.md section 2, 40_execution_loop.md section
2; the spec's decision D10). -/
def Obligations.FaultsChangeOnlyStatus : Prop :=
  ∀ (s t : State) (f : FaultRecord), step s = .next t → t.status = .faulted f →
    t = { s with status := .faulted f }

/-- A step raises exactly the first fault condition of 60_exceptions.md section 1's order, and none otherwise; UnsupportedAluOp
is never raised (the spec's decisions D5, D18, D20). -/
def Obligations.StepFollowsFaultPriority : Prop :=
  ∀ s : State, s.status = .running →
    (∀ f, firstFault s = some f → step s = faultsWith f s) ∧
    (firstFault s = none → ∃ t, step s = .next t ∧ ¬ t.Faulted) ∧
    firstFault s ≠ some .unsupportedAluOp

/-- 10_state.md R27: only HLT sets the halted flag, no instruction clears it or reads it, and the loop stops once it is
set. -/
def Obligations.OnlyHltSetsHalted : Prop :=
  (∀ s t : State, step s = .next t →
    (t.halted = true ↔ s.pc ≤ 253 ∧ decode s.cfg (bytesAtPc s) = .ok .hlt)) ∧
  (∀ s : State, s.halted = true → (∀ t, step s ≠ .next t) ∧ ∀ n, runLoop n s = s) ∧
  (∀ (i : Instr) (s t : State) (x : Status), exec i s = .next t →
    ∃ u, exec i { s with status := x } = .next u ∧ u = { t with status := u.status })

/-! ## Invariants and whole-machine rules -/

/-- The reset state meets the machine's invariant (10_state.md section 7). The default opcode bytes are log 1, fl's reset value is
log 4, the canonical form of memory is log 12. -/
def Obligations.ResetMeetsInvariant : Prop := State.reset.Inv

/-- Every step keeps the invariant, from every state that meets it: memory stays canonical and within 256 addresses, pc stays
at most 257, fl stays 0 or one of E, G, L, and the opcode map stays admissible (10_state.md sections 2 and 3, 46_alu_extension.md
section 1; the bound 257 is the spec's derivation under D9, log 9; fl its general knowledge D25, log 4; the canonical form is the
model's own, log 12). -/
def Obligations.StepKeepsInvariant : Prop :=
  ∀ s t : State, s.Inv → step s = .next t → t.Inv

/-- No step writes the machine's parameters (00_scope.md section 3). That the model carries them in State is its own choice
(log 2). -/
def Obligations.ParametersNeverChange : Prop :=
  ∀ s t : State, step s = .next t → t.cfg = s.cfg

/-- Only PRN appends to the output trace, one byte, the register it names (10_state.md section 5, the spec's decision D11). -/
def Obligations.OnlyPrnEmits : Prop :=
  ∀ (i : Instr) (s t : State), exec i s = .next t →
    (∀ (ra : Byte) (h : ra.toNat < 8), i = .prn ra → t.out = s.out ++ [s.regs[ra.toNat]]) ∧
    ((∀ ra : Byte, ra.toNat < 8 → i ≠ .prn ra) → t.out = s.out)

/-- Only PSH and CALL change memory, and only the byte below the old stack pointer, modulo 256 (20_memory.md section 3,
44_stack.md section 1). -/
def Obligations.OnlyPushesWriteMemory : Prop :=
  ∀ (i : Instr) (s t : State), Memory.wf s.mem = true → exec i s = .next t →
    ∀ addr : Nat, Memory.read t.mem addr ≠ Memory.read s.mem addr →
      addr = (s.regs[7] - 1).toNat ∧ ∃ ra, i = .psh ra ∨ i = .call ra

/-- An instruction changes no register but its destination operand and, for PSH, POP, CALL and RET, R7 (10_state.md section 1,
which the spec derives). -/
def Obligations.OnlyDestinationAndSpChange : Prop :=
  ∀ (i : Instr) (s t : State), exec i s = .next t → ∀ q : Fin 8, t.regs[q.val] ≠ s.regs[q.val] →
    i.destination.map BitVec.toNat = some q.val ∨ (q = 7 ∧ i.movesSp = true)

/-- Only CMP changes fl (46_alu_extension.md section 1, the spec's general knowledge D25; log 4). -/
def Obligations.OnlyCmpWritesFlags : Prop :=
  ∀ (i : Instr) (s t : State), exec i s = .next t → t.fl ≠ s.fl → ∃ ra rb, i = .cmp ra rb

/-- With ALU_EXTENSION off no extension instruction is decoded, ADD among them, and no step changes fl (10_state.md section 3,
43_alu.md, the spec's decision D13). -/
def Obligations.BaseCoreHasNoExtension : Prop :=
  (∀ (c : Config) (w : Fetched) (i : Instr), c.aluExtension = false → decode c w = .ok i →
    i.opcode ∈ [Opcode.hlt, .ret, .psh, .pop, .prn, .call, .ldi, .mul]) ∧
  (∀ s t : State, s.cfg.aluExtension = false → step s = .next t → t.fl = s.fl)

/-- An instruction that does not jump, with its register operands naming registers, advances pc by the length of its encoding,
without wrap (40_execution_loop.md sections 2 and 3, the spec's decision D9). -/
def Obligations.OrdinaryInstructionsAdvanceByLength : Prop :=
  ∀ (i : Instr) (s : State) (m : OpcodeMap), i.wellFormed = true → i.jumps = false →
    ∃ t, exec i s = .next t ∧ t.pc = s.pc + (encode m i).length

/-- No program can observe fl or the output trace: a step's effect on every other field is the same whatever they hold
(46_alu_extension.md section 1, 60_exceptions.md section 4). -/
def Obligations.FlagsAndOutputAreNeverRead : Prop :=
  ∀ (s t : State) (v : Byte) (o : List Byte), step s = .next t →
    ∃ u, step { s with fl := v, out := o } = .next u ∧
      u.regs = t.regs ∧ u.pc = t.pc ∧ u.mem = t.mem ∧ u.status = t.status ∧ u.cfg = t.cfg

/-! ## Memory, stack and ALU -/

/-- 20_memory.md R40: a read answers the byte at an address up to 255 and raises OutOfRange beyond. -/
def Obligations.MemReadContract : Prop :=
  ∀ (s : State) (addr : Nat),
    (addr ≤ 255 → memRead addr s = .ok (Memory.read s.mem addr)) ∧
    (255 < addr → memRead addr s = .error (.outOfRange addr))

/-- A write sets the byte at an address up to 255 and no other, changes nothing else, and raises OutOfRange beyond (20_memory.md
section 1). The canonical form, in the premise and in the clause that memory stays canonical, is the model's own choice, log 12. -/
def Obligations.MemWriteContract : Prop :=
  ∀ (s : State) (addr : Nat) (v : Byte), Memory.wf s.mem = true →
    (addr ≤ 255 → ∃ m, memWrite addr v s = .ok { s with mem := m } ∧ Memory.wf m = true ∧
      ∀ b, Memory.read m b = if b = addr then v else Memory.read s.mem b) ∧
    (255 < addr → memWrite addr v s = .error (.outOfRange addr))

/-- Memories in canonical form that read the same everywhere are the same data (20_memory.md section 4; the form is the
model's own, log 12). -/
def Obligations.CanonicalMemoriesAreEqualWhenReadsAgree : Prop :=
  ∀ m m' : Memory, Memory.wf m = true → Memory.wf m' = true →
    (∀ addr, Memory.read m addr = Memory.read m' addr) → m = m'

/-- The stack engine: push decrements SP modulo 256 and writes there, pop reads at SP and then increments it modulo 256, and
neither ever raises (44_stack.md section 1, the spec's decision D6). -/
def Obligations.StackEngineWrapsAndNeverFaults : Prop :=
  ∀ (s : State) (v : Byte), Memory.wf s.mem = true →
    (∃ m sp', push v s = .ok { s with regs := s.regs.set 7 sp', mem := m } ∧
      sp'.toNat = (s.regs[7].toNat + 255) % 256 ∧
      ∀ b, Memory.read m b = if b = sp'.toNat then v else Memory.read s.mem b) ∧
    (∃ sp', pop s = .ok (Memory.read s.mem s.regs[7].toNat, { s with regs := s.regs.set 7 sp' }) ∧
      sp'.toNat = (s.regs[7].toNat + 1) % 256)

/-- 43_alu.md R120: the ALU writes register ra alone; ADD and MUL write the sum and the product modulo 256; the operation select
is the closed set of those two and the extension's. -/
def Obligations.AluContract : Prop :=
  ∀ (s : State) (ra rb : Fin 8),
    alu .add ra rb s = { s with
      regs := s.regs.set ra.val (BitVec.ofNat 8 ((s.regs[ra.val].toNat + s.regs[rb.val].toNat) % 256)) } ∧
    alu .mul ra rb s = { s with
      regs := s.regs.set ra.val (BitVec.ofNat 8 ((s.regs[ra.val].toNat * s.regs[rb.val].toNat) % 256)) } ∧
    ∀ o : AluOp, (∃ v, alu o ra rb s = { s with regs := s.regs.set ra.val v }) ∧
      (o = .add ∨ o = .mul ∨ o ∈ [AluOp.sub, .and, .or, .xor, .shl, .shr])

/-! ## The result of each instruction, and its frame: every field not named is unchanged -/

/-- 40_execution_loop.md R88: HLT sets Halted after its own advance, pc points just past it, and the loop stops. -/
def Obligations.HltStopsPastItself : Prop :=
  ∀ s : State, exec .hlt s = .next { s with status := .halted, pc := s.pc + 1 } ∧
    ∀ n, runLoop n { s with status := .halted, pc := s.pc + 1 } = { s with status := .halted, pc := s.pc + 1 }

/-- LDI writes its literal (42_register_and_output.md; the spec's decision D19 allows R7). -/
def Obligations.LdiLoadsLiteral : Prop :=
  ∀ (s : State) (ra imm : Byte) (h : ra.toNat < 8),
    exec (.ldi ra imm) s = .next { s with regs := s.regs.set ra.toNat imm, pc := s.pc + 3 }

/-- PRN appends its register to the trace (42_register_and_output.md; the spec's decision D11). -/
def Obligations.PrnEmitsRegister : Prop :=
  ∀ (s : State) (ra : Byte) (h : ra.toNat < 8),
    exec (.prn ra) s = .next { s with out := s.out ++ [s.regs[ra.toNat]], pc := s.pc + 2 }

/-- MUL writes the product modulo 256, unsigned, and no flag (43_alu.md). -/
def Obligations.MulWrapsModulo256 : Prop :=
  ∀ (s : State) (ra rb : Byte) (ha : ra.toNat < 8) (hb : rb.toNat < 8),
    ∃ v : Byte, exec (.mul ra rb) s = .next { s with regs := s.regs.set ra.toNat v, pc := s.pc + 3 } ∧
      v.toNat = (s.regs[ra.toNat].toNat * s.regs[rb.toNat].toNat) % 256

/-- ADD writes the sum modulo 256 (46_alu_extension.md section 2, general knowledge for the opcode). -/
def Obligations.AddWrapsModulo256 : Prop :=
  ∀ (s : State) (ra rb : Byte) (ha : ra.toNat < 8) (hb : rb.toNat < 8),
    ∃ v : Byte, exec (.add ra rb) s = .next { s with regs := s.regs.set ra.toNat v, pc := s.pc + 3 } ∧
      v.toNat = (s.regs[ra.toNat].toNat + s.regs[rb.toNat].toNat) % 256

/-- SUB writes the difference modulo 256 (46_alu_extension.md section 2, general knowledge). -/
def Obligations.SubWrapsModulo256 : Prop :=
  ∀ (s : State) (ra rb : Byte) (ha : ra.toNat < 8) (hb : rb.toNat < 8),
    ∃ v : Byte, exec (.sub ra rb) s = .next { s with regs := s.regs.set ra.toNat v, pc := s.pc + 3 } ∧
      (v.toNat : Int) = ((s.regs[ra.toNat].toNat : Int) - (s.regs[rb.toNat].toNat : Int)) % 256

/-- AND, OR and XOR work bit by bit (46_alu_extension.md section 2, general knowledge). -/
def Obligations.LogicWorksBitByBit : Prop :=
  ∀ (s : State) (ra rb : Byte) (ha : ra.toNat < 8) (hb : rb.toNat < 8),
    (∃ v : Byte, exec (.and ra rb) s = .next { s with regs := s.regs.set ra.toNat v, pc := s.pc + 3 } ∧
      ∀ k, v.getLsbD k = (s.regs[ra.toNat].getLsbD k && s.regs[rb.toNat].getLsbD k)) ∧
    (∃ v : Byte, exec (.or ra rb) s = .next { s with regs := s.regs.set ra.toNat v, pc := s.pc + 3 } ∧
      ∀ k, v.getLsbD k = (s.regs[ra.toNat].getLsbD k || s.regs[rb.toNat].getLsbD k)) ∧
    (∃ v : Byte, exec (.xor ra rb) s = .next { s with regs := s.regs.set ra.toNat v, pc := s.pc + 3 } ∧
      ∀ k, v.getLsbD k = (s.regs[ra.toNat].getLsbD k ^^ s.regs[rb.toNat].getLsbD k))

/-- SHL multiplies by two to the whole count, modulo 256; a count of 8 or more gives 0 (46_alu_extension.md section 2, the spec's
decision D26). -/
def Obligations.ShlShiftsByWholeCount : Prop :=
  ∀ (s : State) (ra rb : Byte) (ha : ra.toNat < 8) (hb : rb.toNat < 8),
    ∃ v : Byte, exec (.shl ra rb) s = .next { s with regs := s.regs.set ra.toNat v, pc := s.pc + 3 } ∧
      v.toNat = (s.regs[ra.toNat].toNat * 2 ^ s.regs[rb.toNat].toNat) % 256 ∧
      (8 ≤ s.regs[rb.toNat].toNat → v = 0)

/-- SHR divides by two to the whole count, logical; a count of 8 or more gives 0 (46_alu_extension.md section 2, the spec's
decision D26). -/
def Obligations.ShrShiftsByWholeCount : Prop :=
  ∀ (s : State) (ra rb : Byte) (ha : ra.toNat < 8) (hb : rb.toNat < 8),
    ∃ v : Byte, exec (.shr ra rb) s = .next { s with regs := s.regs.set ra.toNat v, pc := s.pc + 3 } ∧
      v.toNat = s.regs[ra.toNat].toNat / 2 ^ s.regs[rb.toNat].toNat ∧
      (8 ≤ s.regs[rb.toNat].toNat → v = 0)

/-- CMP writes the whole of fl, 0b00000LGE of an unsigned comparison, exactly one of the three set, and no register
(46_alu_extension.md sections 1 and 2, the spec's general knowledge D25). -/
def Obligations.CmpSetsExactlyOneFlag : Prop :=
  ∀ (s : State) (ra rb : Byte) (ha : ra.toNat < 8) (hb : rb.toNat < 8),
    ∃ v : Byte, exec (.cmp ra rb) s = .next { s with fl := v, pc := s.pc + 3 } ∧
      v.getLsbD 2 = decide (s.regs[ra.toNat].toNat < s.regs[rb.toNat].toNat) ∧
      v.getLsbD 1 = decide (s.regs[ra.toNat].toNat > s.regs[rb.toNat].toNat) ∧
      v.getLsbD 0 = decide (s.regs[ra.toNat].toNat = s.regs[rb.toNat].toNat) ∧
      (∀ k, 3 ≤ k → v.getLsbD k = false) ∧
      (v = 1 ∨ v = 2 ∨ v = 4)

/-- PSH writes its register, read before SP moves, below the stack pointer (44_stack.md section 2). The premise is the canonical
form the invariant keeps. -/
def Obligations.PshStoresBelowSp : Prop :=
  ∀ (s : State) (ra : Byte) (h : ra.toNat < 8), Memory.wf s.mem = true →
    ∃ m, exec (.psh ra) s = .next { s with regs := s.regs.set 7 (s.regs[7] - 1), mem := m, pc := s.pc + 2 } ∧
      ∀ addr, Memory.read m addr =
        if addr = (s.regs[7] - 1).toNat then s.regs[ra.toNat] else Memory.read s.mem addr

/-- POP increments SP and then writes the byte read at the old SP, so POP R7 ends with that byte; memory is unchanged
(44_stack.md section 2). -/
def Obligations.PopLoadsFromSp : Prop :=
  ∀ (s : State) (ra : Byte) (h : ra.toNat < 8),
    exec (.pop ra) s = .next { s with
      regs := (s.regs.set 7 (s.regs[7] + 1)).set ra.toNat (Memory.read s.mem s.regs[7].toNat), pc := s.pc + 2 }

/-- CALL pushes the return address pc + 2, then jumps to its register read after the push, in both modes of PC_ADVANCE_MODE
(45_control_transfer.md, 40_execution_loop.md section 3; the spec's decisions D3, D7, D8). At every pc an instruction executes
from, the byte pushed is exactly pc + 2. -/
def Obligations.CallPushesReturnAddressAndJumps : Prop :=
  ∀ (s : State) (ra : Byte) (h : ra.toNat < 8), Memory.wf s.mem = true →
    ∃ m, exec (.call ra) s = .next { s with
        regs := s.regs.set 7 (s.regs[7] - 1)
        mem := m
        pc := if s.cfg.pcAdvanceMode = .preserve then (s.regs.set 7 (s.regs[7] - 1))[ra.toNat].toNat + 2
          else (s.regs.set 7 (s.regs[7] - 1))[ra.toNat].toNat } ∧
      (∀ addr, addr ≠ (s.regs[7] - 1).toNat → Memory.read m addr = Memory.read s.mem addr) ∧
      (s.pc ≤ 253 → (Memory.read m (s.regs[7] - 1).toNat).toNat = s.pc + 2)

/-- RET pops its target and jumps to it, in both modes of PC_ADVANCE_MODE (45_control_transfer.md, 40_execution_loop.md section 3;
the spec's decision D3). -/
def Obligations.RetPopsTargetAndJumps : Prop :=
  ∀ s : State, exec .ret s = .next { s with
    regs := s.regs.set 7 (s.regs[7] + 1)
    pc := if s.cfg.pcAdvanceMode = .preserve then (Memory.read s.mem s.regs[7].toNat).toNat + 1
      else (Memory.read s.mem s.regs[7].toNat).toNat }

/-- A register operand of 8 or more that the handler uses raises BadRegister(idx, pc), the first operand before the second, and
nothing else changes (10_state.md section 1, 60_exceptions.md section 1; the spec's decision D5). -/
def Obligations.BadRegisterIsRaisedBeforeAnyWrite : Prop :=
  ∀ (s : State) (a b : Byte),
    (∀ i ∈ [Instr.psh a, .pop a, .prn a, .call a, .ldi a b, .mul a b, .add a b, .sub a b, .cmp a b, .and a b, .or a b,
        .xor a b, .shl a b, .shr a b], 8 ≤ a.toNat → exec i s = faultsWith (.badRegister a s.pc) s) ∧
    (∀ i ∈ [Instr.mul a b, .add a b, .sub a b, .cmp a b, .and a b, .or a b, .xor a b, .shl a b, .shr a b],
        a.toNat < 8 → 8 ≤ b.toNat → exec i s = faultsWith (.badRegister b s.pc) s)

/-! ## Sequences of instructions -/

/-- LDI then PRN of the same register emits exactly the literal (42_register_and_output.md, which the spec derives). -/
def Obligations.LdiThenPrnEmitsLiteral : Prop :=
  ∀ (s : State) (ra imm : Byte), ra.toNat < 8 →
    ∃ t u, exec (.ldi ra imm) s = .next t ∧ exec (.prn ra) t = .next u ∧ u.out = s.out ++ [imm]

/-- PSH then POP of the same register, R7 among them, leaves every register as it was (44_stack.md section 2, which the spec
derives), and all but pc and the one stack byte. -/
def Obligations.PshThenPopIsIdentity : Prop :=
  ∀ (s : State) (ra : Byte), ra.toNat < 8 → Memory.wf s.mem = true →
    ∃ t u, exec (.psh ra) s = .next t ∧ exec (.pop ra) t = .next u ∧
      u = { s with pc := s.pc + 4, mem := u.mem } ∧
      ∀ addr, addr ≠ (s.regs[7] - 1).toNat → Memory.read u.mem addr = Memory.read s.mem addr

/-- A CALL, then any routine that leaves SP and the byte there as it found them, then RET: the routine starts at the target and
control returns to the instruction after the CALL in Correct mode; in Preserve mode it starts two bytes later and returns one
byte later. The target is the register's value before the CALL, but for R7 the stack pointer after the push
(45_control_transfer.md, which the spec derives from its decisions D3, D7, D8). -/
def Obligations.CallRetRoundTrip : Prop :=
  ∀ (s t u : State) (ra : Byte) (h : ra.toNat < 8), Memory.wf s.mem = true → s.pc ≤ 253 →
    exec (.call ra) s = .next t → u.regs[7] = t.regs[7] →
    Memory.read u.mem u.regs[7].toNat = Memory.read t.mem t.regs[7].toNat →
    u.cfg.pcAdvanceMode = t.cfg.pcAdvanceMode →
      (t.regs[ra.toNat] = if ra = 7 then s.regs[7] - 1 else s.regs[ra.toNat]) ∧
      ∃ v, exec .ret u = .next v ∧ v.regs[7] = s.regs[7] ∧
        (s.cfg.pcAdvanceMode = .correct → t.pc = t.regs[ra.toNat].toNat ∧ v.pc = s.pc + 2) ∧
        (s.cfg.pcAdvanceMode = .preserve → t.pc = t.regs[ra.toNat].toNat + 2 ∧ v.pc = s.pc + 3)

/-- A byte PSH writes where the next instruction stands is the opcode the next step decodes (20_memory.md section 5, the spec's
decision D15). -/
def Obligations.PushedByteIsTheNextOpcode : Prop :=
  ∀ (s : State) (ra : Byte) (h : ra.toNat < 8), Memory.wf s.mem = true → s.pc ≤ 251 →
    (s.regs[7] - 1).toNat = s.pc + 2 →
      ∃ t w, exec (.psh ra) s = .next t ∧ fetch t = .ok w ∧ w.op = s.regs[ra.toNat]

/-! ## Reset and boot -/

/-- The reset state (70_reset_and_hazards.md section 1). The fl clause is about a machine whose extension is off: that fl exists
there is the model's choice, log 15, and its value 0 is the spec's general knowledge (decision D25), log 4. -/
def Obligations.ResetStateValues : Prop :=
  (∀ r : Fin 7, State.reset.regs[r.val] = 0) ∧ State.reset.regs[7] = 0xF4 ∧ State.reset.pc = 0 ∧
  (∀ addr, Memory.read State.reset.mem addr = 0) ∧ State.reset.status = .running ∧ State.reset.out = [] ∧
  State.reset.fl = 0

/-- The image load: up to 256 bytes land at 0 upwards in the fresh machine and the rest of memory stays 0; a larger image is
refused (70_reset_and_hazards.md section 2, the spec's decision D12, log 16; the canonical form is the model's own, log 12). -/
def Obligations.ImageLoad : Prop :=
  ∀ (c : Config) (img : List Byte),
    (img.length ≤ 256 → ∃ m,
      (Block.fresh c).loadImage img = .next ⟨.beforeStart, { State.reset with mem := m, cfg := c }⟩ ∧
      Memory.wf m = true ∧ ∀ addr, Memory.read m addr = img.getD addr 0) ∧
    (256 < img.length → (Block.fresh c).loadImage img = .refused (.oversizedImage img.length))

/-- The image load and start ports, by the phase of the run: both are taken before the start, start once, and neither after it;
the block steps only once started, and then as the CORE does (10_state.md section 6, the spec's decision D1). The names of the
refusals and the phase are the model's choice, log 17. -/
def Obligations.PortsActOnlyInTheirPhase : Prop :=
  (∀ (b : Block) (img : List Byte), b.phase = .beforeStart →
    (img.length ≤ 256 → ∃ b', b.loadImage img = .next b' ∧ b'.phase = .beforeStart) ∧
    b.start = .next ⟨.stepping, b.core⟩ ∧ b.step = .refused .notStarted) ∧
  (∀ (b : Block) (img : List Byte), b.phase = .stepping →
    b.loadImage img = .refused .imageAfterStart ∧ b.start = .refused .alreadyStarted ∧
    (∀ t, step b.core = .next t → b.step = .next ⟨.stepping, t⟩) ∧
    (∀ f, step b.core = .fault f → b.step = .fault f))

/-- Every session a fresh block goes through is image loads, then at most one start, then steps of the CORE from the reset state
with the images loaded: the host has no move once the run has begun (10_state.md section 6, 70_reset_and_hazards.md section 2;
the spec's decisions D1, D12). That a second load before the start writes over the first is the model's choice, log 17. -/
def Obligations.SessionsLoadThenStartThenStep : Prop :=
  ∀ (c : Config) (ms : List BlockMove) (b : Block), Block.moves ms (Block.fresh c) = .next b →
    ∃ (imgs : List (List Byte)) (n : Nat), (∀ img ∈ imgs, img.length ≤ 256) ∧
      ((ms = imgs.map .loadImage ∧
          b = ⟨.beforeStart, imgs.foldl (fun s img => s.withImage img) (State.resetWith c)⟩) ∨
        (ms = imgs.map .loadImage ++ .start :: List.replicate n .step ∧
          b = ⟨.stepping, runLoop n (imgs.foldl (fun s img => s.withImage img) (State.resetWith c))⟩))
end

