-- ==== Sys2Proof/Laws/Decode.lean ====
section
/-! SUPPORT. Small laws of the opcode map and the decoder. -/

namespace Sys2Proof

/-- A lookup answers only an enabled row, and the row's byte is the one looked up. -/
theorem Config.lookup_some {c : Config} {op : Byte} {o : Opcode} (h : c.lookup op = some o) :
    o ∈ c.enabled ∧ c.opcodeMap.byteOf o = op := by
  unfold Config.lookup at h
  exact ⟨List.mem_of_find?_eq_some h, by simpa using List.find?_some h⟩

/-- A lookup answers none exactly when no enabled row has the byte. -/
theorem Config.lookup_none {c : Config} {op : Byte} :
    c.lookup op = none ↔ ∀ o ∈ c.enabled, c.opcodeMap.byteOf o ≠ op := by
  simp [Config.lookup, List.find?_eq_none]

/-- Decoding depends on the configuration and the opcode through the lookup alone. -/
theorem decode_eq (c : Config) (w : Fetched) :
    decode c w = match c.lookup w.op with
      | some o => .ok (o.toInstr w.a w.b)
      | none => .error (.unrecognized w.op) := rfl

/-- The operation of an instruction is the one it was made from. -/
@[simp] theorem Opcode.toInstr_opcode (o : Opcode) (a b : Byte) : (o.toInstr a b).opcode = o := by
  cases o <;> rfl

end Sys2Proof
end

