-- ==== Sys2Proof/Laws/State.lean ====
section
/-! SUPPORT. What each update of a state leaves in each field, the register file's read-after-write laws, and the fields of
the reset state. -/

namespace Sys2Proof.Machine

variable (s : State)

@[simp] theorem State.setReg_regs (r : Fin 8) (v : Byte) : (s.setReg r v).regs = s.regs.set r.val v := rfl
@[simp] theorem State.setReg_pc (r : Fin 8) (v : Byte) : (s.setReg r v).pc = s.pc := rfl
@[simp] theorem State.setReg_mem (r : Fin 8) (v : Byte) : (s.setReg r v).mem = s.mem := rfl
@[simp] theorem State.setReg_status (r : Fin 8) (v : Byte) : (s.setReg r v).status = s.status := rfl
@[simp] theorem State.setReg_out (r : Fin 8) (v : Byte) : (s.setReg r v).out = s.out := rfl
@[simp] theorem State.setReg_fl (r : Fin 8) (v : Byte) : (s.setReg r v).fl = s.fl := rfl
@[simp] theorem State.setReg_cfg (r : Fin 8) (v : Byte) : (s.setReg r v).cfg = s.cfg := rfl

@[simp] theorem State.setPc_regs (n : Nat) : (s.setPc n).regs = s.regs := rfl
@[simp] theorem State.setPc_pc (n : Nat) : (s.setPc n).pc = n := rfl
@[simp] theorem State.setPc_mem (n : Nat) : (s.setPc n).mem = s.mem := rfl
@[simp] theorem State.setPc_status (n : Nat) : (s.setPc n).status = s.status := rfl
@[simp] theorem State.setPc_out (n : Nat) : (s.setPc n).out = s.out := rfl
@[simp] theorem State.setPc_fl (n : Nat) : (s.setPc n).fl = s.fl := rfl
@[simp] theorem State.setPc_cfg (n : Nat) : (s.setPc n).cfg = s.cfg := rfl

@[simp] theorem State.setMem_regs (m : Memory) : (s.setMem m).regs = s.regs := rfl
@[simp] theorem State.setMem_pc (m : Memory) : (s.setMem m).pc = s.pc := rfl
@[simp] theorem State.setMem_mem (m : Memory) : (s.setMem m).mem = m := rfl
@[simp] theorem State.setMem_status (m : Memory) : (s.setMem m).status = s.status := rfl
@[simp] theorem State.setMem_out (m : Memory) : (s.setMem m).out = s.out := rfl
@[simp] theorem State.setMem_fl (m : Memory) : (s.setMem m).fl = s.fl := rfl
@[simp] theorem State.setMem_cfg (m : Memory) : (s.setMem m).cfg = s.cfg := rfl

@[simp] theorem State.setStatus_regs (x : Status) : (s.setStatus x).regs = s.regs := rfl
@[simp] theorem State.setStatus_pc (x : Status) : (s.setStatus x).pc = s.pc := rfl
@[simp] theorem State.setStatus_mem (x : Status) : (s.setStatus x).mem = s.mem := rfl
@[simp] theorem State.setStatus_status (x : Status) : (s.setStatus x).status = x := rfl
@[simp] theorem State.setStatus_out (x : Status) : (s.setStatus x).out = s.out := rfl
@[simp] theorem State.setStatus_fl (x : Status) : (s.setStatus x).fl = s.fl := rfl
@[simp] theorem State.setStatus_cfg (x : Status) : (s.setStatus x).cfg = s.cfg := rfl

@[simp] theorem State.setFl_regs (v : Byte) : (s.setFl v).regs = s.regs := rfl
@[simp] theorem State.setFl_pc (v : Byte) : (s.setFl v).pc = s.pc := rfl
@[simp] theorem State.setFl_mem (v : Byte) : (s.setFl v).mem = s.mem := rfl
@[simp] theorem State.setFl_status (v : Byte) : (s.setFl v).status = s.status := rfl
@[simp] theorem State.setFl_out (v : Byte) : (s.setFl v).out = s.out := rfl
@[simp] theorem State.setFl_fl (v : Byte) : (s.setFl v).fl = v := rfl
@[simp] theorem State.setFl_cfg (v : Byte) : (s.setFl v).cfg = s.cfg := rfl

@[simp] theorem emit_regs (v : Byte) : (emit v s).regs = s.regs := rfl
@[simp] theorem emit_pc (v : Byte) : (emit v s).pc = s.pc := rfl
@[simp] theorem emit_mem (v : Byte) : (emit v s).mem = s.mem := rfl
@[simp] theorem emit_status (v : Byte) : (emit v s).status = s.status := rfl
@[simp] theorem emit_out (v : Byte) : (emit v s).out = s.out ++ [v] := rfl
@[simp] theorem emit_fl (v : Byte) : (emit v s).fl = s.fl := rfl
@[simp] theorem emit_cfg (v : Byte) : (emit v s).cfg = s.cfg := rfl

/-- A register reads what was last written to it. -/
@[simp] theorem State.reg_setReg_same (r : Fin 8) (v : Byte) : (s.setReg r v).reg r = v := by
  simp [State.reg]

/-- Writing one register leaves the others alone. -/
theorem State.reg_setReg_other {r q : Fin 8} (h : q ≠ r) (v : Byte) : (s.setReg r v).reg q = s.reg q := by
  have hne : r.val ≠ q.val := fun e => h (Fin.ext e.symm)
  simp [State.reg, hne]

theorem State.reg_setReg (r q : Fin 8) (v : Byte) : (s.setReg r v).reg q = if q = r then v else s.reg q := by
  by_cases h : q = r
  · subst h; simp
  · simp [State.reg_setReg_other s h, h]

@[simp] theorem State.reg_setPc (r : Fin 8) (n : Nat) : (s.setPc n).reg r = s.reg r := rfl
@[simp] theorem State.reg_setMem (r : Fin 8) (m : Memory) : (s.setMem m).reg r = s.reg r := rfl
@[simp] theorem State.reg_setStatus (r : Fin 8) (x : Status) : (s.setStatus x).reg r = s.reg r := rfl
@[simp] theorem State.reg_setFl (r : Fin 8) (v : Byte) : (s.setFl v).reg r = s.reg r := rfl
@[simp] theorem State.reg_emit (r : Fin 8) (v : Byte) : (emit v s).reg r = s.reg r := rfl

@[simp] theorem State.reset_pc : State.reset.pc = 0 := rfl
@[simp] theorem State.reset_mem : State.reset.mem = [] := rfl
@[simp] theorem State.reset_status : State.reset.status = .running := rfl
@[simp] theorem State.reset_out : State.reset.out = [] := rfl
@[simp] theorem State.reset_fl : State.reset.fl = 0 := rfl
@[simp] theorem State.reset_cfg : State.reset.cfg = Config.default := rfl

end Sys2Proof.Machine
end

