-- ==== Sys2Proof/Laws/Memory.lean ====
section
/-! SUPPORT. The laws of memory: read after write, the canonical form, and that every operation keeps it. -/

namespace Sys2Proof.Machine

@[simp] theorem Memory.wfFrom_cons (lo k : Nat) (v : Byte) (m : Memory) :
    Memory.wfFrom lo ((k, v) :: m) = true ↔
      lo ≤ k ∧ k < 256 ∧ v ≠ Memory.unlisted ∧ Memory.wfFrom (k + 1) m = true := by
  simp [Memory.wfFrom, and_assoc]

/-- A canonical tail is canonical from any lower bound. -/
theorem Memory.wfFrom_mono {lo lo' : Nat} (h : lo' ≤ lo) {m : Memory} (hm : Memory.wfFrom lo m = true) :
    Memory.wfFrom lo' m = true := by
  cases m with
  | nil => rfl
  | cons c rest =>
    obtain ⟨k, v⟩ := c
    rw [Memory.wfFrom_cons] at hm ⊢
    exact ⟨by omega, hm.2⟩

/-- An address below every cell reads as an unlisted one. -/
theorem Memory.read_below {lo addr : Nat} (h : addr < lo) {m : Memory} (hm : Memory.wfFrom lo m = true) :
    Memory.read m addr = Memory.unlisted := by
  induction m generalizing lo with
  | nil => rfl
  | cons c rest ih =>
    obtain ⟨k, v⟩ := c
    rw [Memory.wfFrom_cons] at hm
    have hk : k ≠ addr := by omega
    simp only [Memory.read, hk, if_false]
    exact ih (by omega) hm.2.2.2

/-- Writing keeps the canonical form from any lower bound the address respects. -/
theorem Memory.write_wfFrom {lo addr : Nat} (v : Byte) (hlo : lo ≤ addr) (ha : addr < 256) {m : Memory}
    (hm : Memory.wfFrom lo m = true) : Memory.wfFrom lo (Memory.write m addr v) = true := by
  induction m generalizing lo with
  | nil =>
    unfold Memory.write
    split
    · rfl
    · rw [Memory.wfFrom_cons]; exact ⟨hlo, ha, ‹_›, rfl⟩
  | cons c rest ih =>
    obtain ⟨k, w⟩ := c
    have hm' := hm
    rw [Memory.wfFrom_cons] at hm
    obtain ⟨h1, h2, h3, h4⟩ := hm
    unfold Memory.write
    split
    · split
      · exact hm'
      · rw [Memory.wfFrom_cons, Memory.wfFrom_cons]
        exact ⟨hlo, ha, ‹_›, by omega, h2, h3, h4⟩
    · split
      · split
        · exact Memory.wfFrom_mono (by omega) h4
        · rw [Memory.wfFrom_cons]; exact ⟨h1, h2, ‹_›, h4⟩
      · rw [Memory.wfFrom_cons]
        exact ⟨h1, h2, h3, ih (by omega) h4⟩

/-- Every write of an address of the machine keeps the canonical form. -/
theorem Memory.write_wf {addr : Nat} (v : Byte) (ha : addr < 256) {m : Memory} (hm : Memory.wf m = true) :
    Memory.wf (Memory.write m addr v) = true :=
  Memory.write_wfFrom v (Nat.zero_le _) ha hm

/-- Read after write, for memory canonical from any lower bound. -/
theorem Memory.read_write_from {lo : Nat} (addr b : Nat) (v : Byte) {m : Memory} (hm : Memory.wfFrom lo m = true) :
    Memory.read (Memory.write m addr v) b = if b = addr then v else Memory.read m b := by
  induction m generalizing lo with
  | nil =>
    unfold Memory.write
    split
    · next h => subst h; simp [Memory.read]
    · simp [Memory.read, eq_comm]
  | cons c rest ih =>
    obtain ⟨k, w⟩ := c
    have hm' := hm
    rw [Memory.wfFrom_cons] at hm
    obtain ⟨-, -, -, h4⟩ := hm
    have ih := ih h4
    unfold Memory.write
    split
    · split
      · next hlt hv =>
        subst hv
        split
        · next hb =>
          subst hb
          exact Memory.read_below (lo := b + 1) (Nat.lt_succ_self b)
            (by rw [Memory.wfFrom_cons] at hm' ⊢; exact ⟨by omega, hm'.2⟩)
        · rfl
      · simp only [Memory.read, eq_comm]
    · split
      · next heq =>
        subst heq
        split
        · next hv =>
          subst hv
          split
          · next hb => subst hb; exact Memory.read_below (Nat.lt_succ_self _) h4
          · next hb => simp [Memory.read, Ne.symm hb]
        · by_cases hb : b = addr
          · simp [Memory.read, hb]
          · simp [Memory.read, hb, Ne.symm hb]
      · next hne =>
        simp only [Memory.read, ih]
        by_cases hk : k = b
        · subst hk; simp [Ne.symm hne]
        · simp [hk]

/-- Read after write: the address written reads as the value, and every other address as before. -/
theorem Memory.read_write (addr b : Nat) (v : Byte) {m : Memory} (hm : Memory.wf m = true) :
    Memory.read (Memory.write m addr v) b = if b = addr then v else Memory.read m b :=
  Memory.read_write_from addr b v hm

/-- Writing bytes one after another keeps the canonical form while they fit. -/
theorem Memory.writeAll_wf {m : Memory} (hm : Memory.wf m = true) {bytes : List Byte} {addr : Nat}
    (h : addr + bytes.length ≤ 256) : Memory.wf (Memory.writeAll m addr bytes) = true := by
  induction bytes generalizing m addr with
  | nil => exact hm
  | cons v rest ih =>
    rw [List.length_cons] at h
    exact ih (Memory.write_wf v (by omega) hm) (by omega)

/-- An image load of at most 256 bytes keeps the canonical form. -/
theorem State.withImage_wf (s : State) {img : List Byte} (h : img.length ≤ 256) (hm : Memory.wf s.mem = true) :
    Memory.wf (s.withImage img).mem = true :=
  Memory.writeAll_wf hm (by omega)

/-- Memory at reset has the canonical form. -/
theorem Memory.reset_wf : Memory.wf State.reset.mem = true := rfl

end Sys2Proof.Machine
end

