-- ==== Sys2Proof/Laws/Ops.lean ====
section
/-! SUPPORT. For each shared operation, one lemma that says once what it answers. -/

namespace Sys2Proof.Machine

variable (s : State)

/-- A checked read of an address of memory. -/
theorem memRead_ok {addr : Nat} (h : addr < 256) : memRead addr s = .ok (Memory.read s.mem addr) := by
  simp [memRead, memSize, h]

/-- A checked read beyond memory. -/
theorem memRead_error {addr : Nat} (h : ¬ addr < 256) : memRead addr s = .error (.outOfRange addr) := by
  simp [memRead, memSize, h]

/-- A checked write of an address of memory. -/
theorem memWrite_ok {addr : Nat} (h : addr < 256) (v : Byte) :
    memWrite addr v s = .ok (s.setMem (Memory.write s.mem addr v)) := by
  simp [memWrite, memSize, h]

/-- A push never raises (44_stack.md R135). -/
theorem push_eq (v : Byte) :
    push v s = .ok ((s.setReg spIndex (s.sp - 1)).setMem (Memory.write s.mem (s.sp - 1).toNat v)) := by
  have h : (s.sp - 1).toNat < 256 := (s.sp - 1).isLt
  have hsp : (s.setReg spIndex (s.sp - 1)).sp = s.sp - 1 := State.reg_setReg_same s spIndex _
  unfold push
  simp only [hsp, memWrite_ok _ h, State.setReg_mem]

/-- A pop never raises (44_stack.md R135). -/
theorem pop_eq : pop s = .ok (Memory.read s.mem s.sp.toNat, s.setReg spIndex (s.sp + 1)) := by
  have h : s.sp.toNat < 256 := s.sp.isLt
  unfold pop
  rw [memRead_ok s h]
  rfl

/-- A fetch that lies within memory. -/
theorem fetch_ok (h : s.pc ≤ 253) :
    fetch s = .ok ⟨Memory.read s.mem s.pc, Memory.read s.mem (s.pc + 1), Memory.read s.mem (s.pc + 2)⟩ := by
  unfold fetch
  rw [memRead_ok s (by omega), memRead_ok s (by omega), memRead_ok s (by omega)]
  rfl

/-- A fetch beyond memory raises `OutOfRange` of the first address beyond 255 (40_execution_loop.md R81). -/
theorem fetch_error (h : ¬ s.pc ≤ 253) : fetch s = .error (.outOfRange (max s.pc 256)) := by
  unfold fetch
  by_cases h0 : s.pc < 256
  · rw [memRead_ok s h0]
    by_cases h1 : s.pc + 1 < 256
    · rw [memRead_ok s h1, memRead_error s (by omega), show s.pc + 2 = max s.pc 256 by omega]
      rfl
    · rw [memRead_error s h1, show s.pc + 1 = max s.pc 256 by omega]
      rfl
  · rw [memRead_error s h0, show max s.pc 256 = s.pc by omega]
    rfl

theorem regOperand_ok {idx : Byte} (h : idx.toNat < 8) : regOperand idx s = .ok ⟨idx.toNat, h⟩ := by
  simp [regOperand, h]

theorem regOperand_error {idx : Byte} (h : ¬ idx.toNat < 8) : regOperand idx s = .error (.badRegister idx s.pc) := by
  simp [regOperand, h]

/-- Both operands name registers. -/
theorem regOperands_ok {a b : Byte} (ha : a.toNat < 8) (hb : b.toNat < 8) :
    regOperands a b s = .ok (⟨a.toNat, ha⟩, ⟨b.toNat, hb⟩) := by
  unfold regOperands
  rw [regOperand_ok s ha, regOperand_ok s hb]
  rfl

/-- The first operand names no register. -/
theorem regOperands_error_first {a : Byte} (b : Byte) (ha : ¬ a.toNat < 8) :
    regOperands a b s = .error (.badRegister a s.pc) := by
  unfold regOperands
  rw [regOperand_error s ha]
  rfl

/-- Only the second operand names no register. -/
theorem regOperands_error_second {a b : Byte} (ha : a.toNat < 8) (hb : ¬ b.toNat < 8) :
    regOperands a b s = .error (.badRegister b s.pc) := by
  unfold regOperands
  rw [regOperand_ok s ha, regOperand_error s hb]
  rfl

theorem finish_error (len : Nat) (f : FaultRecord) : finish len s (.error f) = .next (s.setStatus (.faulted f)) := rfl

theorem finish_ok (len : Nat) (t : State) (o : HandlerOutcome) :
    finish len s (.ok (t, o)) = .next (t.setPc (nextPc t.cfg.pcAdvanceMode t.pc len o)) := rfl

/-- The end of a step answers a next state in every case: a faulted start state, or the handler's state with pc advanced. -/
theorem finish_cases {len : Nat} {h : Handler} {t : State} (ht : finish len s h = .next t) :
    (∃ f, h = .error f ∧ t = s.setStatus (.faulted f)) ∨
      (∃ u o, h = .ok (u, o) ∧ t = u.setPc (nextPc u.cfg.pcAdvanceMode u.pc len o)) := by
  cases h with
  | error f => exact .inl ⟨f, rfl, (Host.Outcome.next.inj ht).symm⟩
  | ok r => exact .inr ⟨r.1, r.2, rfl, (Host.Outcome.next.inj ht).symm⟩

/-- The three outcomes of a comparison and the flag byte of each (46_alu_extension.md R160). -/
theorem compareFlags_cases (x y : Byte) :
    (x.toNat < y.toNat ∧ compareFlags x y = 4) ∨ (x.toNat > y.toNat ∧ compareFlags x y = 2) ∨
      (x.toNat = y.toNat ∧ compareFlags x y = 1) := by
  unfold compareFlags flagBit
  rcases Nat.lt_trichotomy x.toNat y.toNat with h | h | h
  · have h1 : ¬ y.toNat < x.toNat := by omega
    have h2 : x.toNat ≠ y.toNat := by omega
    refine .inl ⟨h, ?_⟩
    simp only [h, h1, h2, decide_true, decide_false]
    decide
  · refine .inr (.inr ⟨h, ?_⟩)
    simp only [h, gt_iff_lt, lt_irrefl, decide_true, decide_false]
    decide
  · have h1 : ¬ x.toNat < y.toNat := by omega
    have h2 : x.toNat ≠ y.toNat := by omega
    refine .inr (.inl ⟨h, ?_⟩)
    simp only [h, h1, h2, decide_true, decide_false]
    decide

end Sys2Proof.Machine
end

