-- ==== Sys2Proof/Laws/Exec.lean ====
section
/-! SUPPORT. What each instruction answers: its next state when its register operands name registers, and the fault it
takes when one does not. Claims cite these and never unfold a meaning. -/

namespace Sys2Proof.Machine

variable (s : State)

theorem execHlt_eq : execHlt s = .next ((s.setStatus .halted).setPc (s.pc + 1)) := rfl

theorem execRet_eq :
    execRet s = .next ((s.setReg spIndex (s.sp + 1)).setPc
      (nextPc s.cfg.pcAdvanceMode s.pc 1 (.jumpTo (Memory.read s.mem s.sp.toNat)))) := by
  unfold execRet
  rw [pop_eq]
  rfl

theorem execPsh_ok {ra : Byte} (h : ra.toNat < 8) :
    execPsh ra s = .next (((s.setReg spIndex (s.sp - 1)).setMem
      (Memory.write s.mem (s.sp - 1).toNat (s.reg ⟨ra.toNat, h⟩))).setPc (s.pc + 2)) := by
  unfold execPsh
  rw [regOperand_ok s h]
  change finish 2 s ((push (s.reg ⟨ra.toNat, h⟩) s) >>= fun t => .ok (t, .advanceBy 2)) = _
  rw [push_eq]
  rfl

theorem execPsh_bad {ra : Byte} (h : ¬ ra.toNat < 8) :
    execPsh ra s = .next (s.setStatus (.faulted (.badRegister ra s.pc))) := by
  unfold execPsh
  rw [regOperand_error s h]
  rfl

theorem execPop_ok {ra : Byte} (h : ra.toNat < 8) :
    execPop ra s = .next (((s.setReg spIndex (s.sp + 1)).setReg ⟨ra.toNat, h⟩
      (Memory.read s.mem s.sp.toNat)).setPc (s.pc + 2)) := by
  unfold execPop
  rw [regOperand_ok s h, pop_eq]
  rfl

theorem execPop_bad {ra : Byte} (h : ¬ ra.toNat < 8) :
    execPop ra s = .next (s.setStatus (.faulted (.badRegister ra s.pc))) := by
  unfold execPop
  rw [regOperand_error s h]
  rfl

theorem execPrn_ok {ra : Byte} (h : ra.toNat < 8) :
    execPrn ra s = .next ((emit (s.reg ⟨ra.toNat, h⟩) s).setPc (s.pc + 2)) := by
  unfold execPrn
  rw [regOperand_ok s h]
  rfl

theorem execPrn_bad {ra : Byte} (h : ¬ ra.toNat < 8) :
    execPrn ra s = .next (s.setStatus (.faulted (.badRegister ra s.pc))) := by
  unfold execPrn
  rw [regOperand_error s h]
  rfl

/-- The state CALL jumps from: the return address pushed. -/
def callPushed : State :=
  (s.setReg spIndex (s.sp - 1)).setMem (Memory.write s.mem (s.sp - 1).toNat (returnAddress s.pc))

theorem execCall_ok {ra : Byte} (h : ra.toNat < 8) :
    execCall ra s = .next ((callPushed s).setPc
      (nextPc s.cfg.pcAdvanceMode s.pc 2 (.jumpTo ((callPushed s).reg ⟨ra.toNat, h⟩)))) := by
  unfold execCall
  rw [regOperand_ok s h]
  change finish 2 s ((push (returnAddress s.pc) s) >>= fun t => .ok (t, .jumpTo (t.reg ⟨ra.toNat, h⟩))) = _
  rw [push_eq]
  rfl

theorem execCall_bad {ra : Byte} (h : ¬ ra.toNat < 8) :
    execCall ra s = .next (s.setStatus (.faulted (.badRegister ra s.pc))) := by
  unfold execCall
  rw [regOperand_error s h]
  rfl

theorem execLdi_ok {ra : Byte} (imm : Byte) (h : ra.toNat < 8) :
    execLdi ra imm s = .next ((s.setReg ⟨ra.toNat, h⟩ imm).setPc (s.pc + 3)) := by
  unfold execLdi
  rw [regOperand_ok s h]
  rfl

theorem execLdi_bad {ra : Byte} (imm : Byte) (h : ¬ ra.toNat < 8) :
    execLdi ra imm s = .next (s.setStatus (.faulted (.badRegister ra s.pc))) := by
  unfold execLdi
  rw [regOperand_error s h]
  rfl

/-- Every ALU instruction, with both operands naming registers. -/
theorem aluHandler_ok (o : AluOp) {a b : Byte} (ha : a.toNat < 8) (hb : b.toNat < 8) :
    finish 3 s (aluHandler o a b s) = .next ((s.setReg ⟨a.toNat, ha⟩
      (aluResult o (s.reg ⟨a.toNat, ha⟩) (s.reg ⟨b.toNat, hb⟩))).setPc (s.pc + 3)) := by
  unfold aluHandler
  rw [regOperands_ok s ha hb]
  rfl

/-- Every ALU instruction, with a first operand that names no register. -/
theorem aluHandler_bad_first (o : AluOp) {a : Byte} (b : Byte) (ha : ¬ a.toNat < 8) :
    finish 3 s (aluHandler o a b s) = .next (s.setStatus (.faulted (.badRegister a s.pc))) := by
  unfold aluHandler
  rw [regOperands_error_first s b ha]
  rfl

/-- Every ALU instruction, with only the second operand naming no register. -/
theorem aluHandler_bad_second (o : AluOp) {a b : Byte} (ha : a.toNat < 8) (hb : ¬ b.toNat < 8) :
    finish 3 s (aluHandler o a b s) = .next (s.setStatus (.faulted (.badRegister b s.pc))) := by
  unfold aluHandler
  rw [regOperands_error_second s ha hb]
  rfl

theorem execCmp_ok {a b : Byte} (ha : a.toNat < 8) (hb : b.toNat < 8) :
    execCmp a b s = .next ((s.setFl
      (compareFlags (s.reg ⟨a.toNat, ha⟩) (s.reg ⟨b.toNat, hb⟩))).setPc (s.pc + 3)) := by
  unfold execCmp
  rw [regOperands_ok s ha hb]
  rfl

theorem execCmp_bad_first {a : Byte} (b : Byte) (ha : ¬ a.toNat < 8) :
    execCmp a b s = .next (s.setStatus (.faulted (.badRegister a s.pc))) := by
  unfold execCmp
  rw [regOperands_error_first s b ha]
  rfl

theorem execCmp_bad_second {a b : Byte} (ha : a.toNat < 8) (hb : ¬ b.toNat < 8) :
    execCmp a b s = .next (s.setStatus (.faulted (.badRegister b s.pc))) := by
  unfold execCmp
  rw [regOperands_error_second s ha hb]
  rfl

/-- A step whose three reads lie within memory. -/
theorem step_of_running (hr : s.status = .running) (hp : s.pc ≤ 253) : step s = runFetched (bytesAtPc s) s := by
  unfold step
  rw [hr]
  simp only [fetch_ok s hp]
  rfl

/-- A step whose reads run beyond memory. -/
theorem step_of_running_beyond (hr : s.status = .running) (hp : 253 < s.pc) :
    step s = .next (s.setStatus (.faulted (.outOfRange (max s.pc 256)))) := by
  unfold step
  rw [hr]
  simp only [fetch_error s (Nat.not_le.2 hp)]
  rfl

/-- What one step can do: nothing outside Running; in Running, a fault of the fetch, an unrecognized opcode, or the decoded
instruction. -/
theorem step_cases {t : State} (h : step s = .next t) :
    s.status = .running ∧
      ((253 < s.pc ∧ t = s.setStatus (.faulted (.outOfRange (max s.pc 256)))) ∨
        (s.pc ≤ 253 ∧ ∃ w, fetch s = .ok w ∧
          ((∃ i, decode s.cfg w = .ok i ∧ exec i s = .next t) ∨
            (∃ e, decode s.cfg w = .error e ∧
              t = s.setStatus (.faulted (.unrecognized w.op s.pc s.regs)))))) := by
  unfold step at h
  split at h
  · cases h
  · cases h
  · refine ⟨‹_›, ?_⟩
    by_cases hp : s.pc ≤ 253
    · rw [fetch_ok s hp] at h ⊢
      refine .inr ⟨hp, _, rfl, ?_⟩
      simp only [runFetched] at h
      split at h
      · exact .inl ⟨_, ‹_›, h⟩
      · exact .inr ⟨_, ‹_›, (Host.Outcome.next.inj h).symm⟩
    · rw [fetch_error s hp] at h
      exact .inl ⟨by omega, (Host.Outcome.next.inj h).symm⟩

end Sys2Proof.Machine
end

