-- ==== Sys2Proof/Laws/Effect.lean ====
section
/-! SUPPORT. `exec` said once for every instruction: a well-formed one leaves `effect i s`, an ill-formed one takes the fault of
its first bad register operand. Whole-machine claims split on this and never unfold a meaning. -/

namespace Sys2Proof.Machine

/-- The register a well-formed operand names. -/
def opReg (b : Byte) : Fin 8 := ⟨b.toNat % 8, Nat.mod_lt _ (by decide)⟩

theorem opReg_eq {b : Byte} (h : b.toNat < 8) : opReg b = ⟨b.toNat, h⟩ := Fin.ext (Nat.mod_eq_of_lt h)

/-- The state an ALU instruction leaves. -/
def aluEffect (o : AluOp) (ra rb : Byte) (s : State) : State :=
  (s.setReg (opReg ra) (aluResult o (s.reg (opReg ra)) (s.reg (opReg rb)))).setPc (s.pc + 3)

/-- The state a well-formed instruction leaves. -/
def effect (i : Instr) (s : State) : State :=
  match i with
  | .hlt => (s.setStatus .halted).setPc (s.pc + 1)
  | .ret => (s.setReg spIndex (s.sp + 1)).setPc
      (nextPc s.cfg.pcAdvanceMode s.pc 1 (.jumpTo (Memory.read s.mem s.sp.toNat)))
  | .psh ra => ((s.setReg spIndex (s.sp - 1)).setMem
      (Memory.write s.mem (s.sp - 1).toNat (s.reg (opReg ra)))).setPc (s.pc + 2)
  | .pop ra => ((s.setReg spIndex (s.sp + 1)).setReg (opReg ra) (Memory.read s.mem s.sp.toNat)).setPc (s.pc + 2)
  | .prn ra => (emit (s.reg (opReg ra)) s).setPc (s.pc + 2)
  | .call ra => (callPushed s).setPc
      (nextPc s.cfg.pcAdvanceMode s.pc 2 (.jumpTo ((callPushed s).reg (opReg ra))))
  | .ldi ra imm => (s.setReg (opReg ra) imm).setPc (s.pc + 3)
  | .mul ra rb => aluEffect .mul ra rb s
  | .add ra rb => aluEffect .add ra rb s
  | .sub ra rb => aluEffect .sub ra rb s
  | .cmp ra rb => (s.setFl (compareFlags (s.reg (opReg ra)) (s.reg (opReg rb)))).setPc (s.pc + 3)
  | .and ra rb => aluEffect .and ra rb s
  | .or ra rb => aluEffect .or ra rb s
  | .xor ra rb => aluEffect .xor ra rb s
  | .shl ra rb => aluEffect .shl ra rb s
  | .shr ra rb => aluEffect .shr ra rb s

variable (s : State)

theorem namesRegister_iff {b : Byte} : namesRegister b = true ↔ b.toNat < 8 := by simp [namesRegister]

/-- An ALU instruction whose operands name registers. -/
theorem finish_aluHandler (o : AluOp) {a b : Byte} (h : (namesRegister a && namesRegister b) = true) :
    finish 3 s (aluHandler o a b s) = .next (aluEffect o a b s) := by
  rw [Bool.and_eq_true, namesRegister_iff, namesRegister_iff] at h
  rw [aluHandler_ok s o h.1 h.2, aluEffect, opReg_eq h.1, opReg_eq h.2]

/-- A well-formed instruction completes, from every state. -/
theorem exec_wellFormed {i : Instr} (h : i.wellFormed = true) : exec i s = .next (effect i s) := by
  cases i with
  | hlt => rfl
  | ret => exact execRet_eq s
  | psh ra =>
    have h := namesRegister_iff.1 h
    simp only [exec, effect, execPsh_ok s h, opReg_eq h]
  | pop ra =>
    have h := namesRegister_iff.1 h
    simp only [exec, effect, execPop_ok s h, opReg_eq h]
  | prn ra =>
    have h := namesRegister_iff.1 h
    simp only [exec, effect, execPrn_ok s h, opReg_eq h]
  | call ra =>
    have h := namesRegister_iff.1 h
    simp only [exec, effect, execCall_ok s h, opReg_eq h]
  | ldi ra imm =>
    have h := namesRegister_iff.1 h
    simp only [exec, effect, execLdi_ok s imm h, opReg_eq h]
  | cmp ra rb =>
    rw [Instr.wellFormed, Bool.and_eq_true, namesRegister_iff, namesRegister_iff] at h
    simp only [exec, effect, execCmp_ok s h.1 h.2, opReg_eq h.1, opReg_eq h.2]
  | mul ra rb => exact finish_aluHandler s .mul h
  | add ra rb => exact finish_aluHandler s .add h
  | sub ra rb => exact finish_aluHandler s .sub h
  | and ra rb => exact finish_aluHandler s .and h
  | or ra rb => exact finish_aluHandler s .or h
  | xor ra rb => exact finish_aluHandler s .xor h
  | shl ra rb => exact finish_aluHandler s .shl h
  | shr ra rb => exact finish_aluHandler s .shr h

/-- The first operand byte that names no register. -/
def badOperand (i : Instr) : Option Byte := i.registerOperands.find? fun idx => !namesRegister idx

/-- A well-formed instruction has no bad operand. -/
theorem badOperand_none {i : Instr} (h : i.wellFormed = true) : badOperand i = none := by
  cases i <;> simp_all [badOperand, Instr.registerOperands, Instr.wellFormed]

/-- One operand, not a register: it is the first bad one. -/
theorem find_one {a : Byte} (h : namesRegister a = false) : [a].find? (fun idx => !namesRegister idx) = some a := by
  simp [h]

/-- An ALU instruction with an operand that names no register. -/
theorem finish_aluHandler_bad (o : AluOp) {a b : Byte} (h : (namesRegister a && namesRegister b) = false) :
    ∃ idx, [a, b].find? (fun idx => !namesRegister idx) = some idx ∧
      finish 3 s (aluHandler o a b s) = .next (s.setStatus (.faulted (.badRegister idx s.pc))) := by
  by_cases ha : namesRegister a = true
  · have hb : namesRegister b = false := by simpa [ha] using h
    exact ⟨b, by simp [ha, hb], aluHandler_bad_second s o (namesRegister_iff.1 ha)
      (fun h' => by simp [namesRegister_iff.2 h'] at hb)⟩
  · exact ⟨a, by simp [ha], aluHandler_bad_first s o b fun h' => ha (namesRegister_iff.2 h')⟩

/-- An ill-formed instruction takes the fault of its first bad operand, and nothing else. -/
theorem exec_illFormed {i : Instr} (h : i.wellFormed = false) :
    ∃ idx, badOperand i = some idx ∧ exec i s = .next (s.setStatus (.faulted (.badRegister idx s.pc))) := by
  have bad : ∀ {b : Byte}, namesRegister b = false → ¬ b.toNat < 8 := fun hb h' => by
    simp [namesRegister_iff.2 h'] at hb
  cases i with
  | hlt => cases h
  | ret => cases h
  | psh ra => exact ⟨ra, find_one h, execPsh_bad s (bad h)⟩
  | pop ra => exact ⟨ra, find_one h, execPop_bad s (bad h)⟩
  | prn ra => exact ⟨ra, find_one h, execPrn_bad s (bad h)⟩
  | call ra => exact ⟨ra, find_one h, execCall_bad s (bad h)⟩
  | ldi ra imm => exact ⟨ra, find_one h, execLdi_bad s imm (bad h)⟩
  | cmp ra rb =>
    by_cases ha : namesRegister ra = true
    · have hb : namesRegister rb = false := by simpa [Instr.wellFormed, ha] using h
      exact ⟨rb, by simp [badOperand, Instr.registerOperands, ha, hb],
        execCmp_bad_second s (namesRegister_iff.1 ha) (bad hb)⟩
    · exact ⟨ra, by simp [badOperand, Instr.registerOperands, ha],
        execCmp_bad_first s rb fun h' => ha (namesRegister_iff.2 h')⟩
  | mul ra rb => exact finish_aluHandler_bad s .mul h
  | add ra rb => exact finish_aluHandler_bad s .add h
  | sub ra rb => exact finish_aluHandler_bad s .sub h
  | and ra rb => exact finish_aluHandler_bad s .and h
  | or ra rb => exact finish_aluHandler_bad s .or h
  | xor ra rb => exact finish_aluHandler_bad s .xor h
  | shl ra rb => exact finish_aluHandler_bad s .shl h
  | shr ra rb => exact finish_aluHandler_bad s .shr h

/-- What one instruction can do: a well-formed one its effect, an ill-formed one its fault. -/
theorem exec_cases {i : Instr} {t : State} (h : exec i s = .next t) :
    (i.wellFormed = true ∧ t = effect i s) ∨
      (i.wellFormed = false ∧ ∃ idx, badOperand i = some idx ∧
        t = s.setStatus (.faulted (.badRegister idx s.pc))) := by
  cases hw : i.wellFormed with
  | true =>
    rw [exec_wellFormed s hw] at h
    exact .inl ⟨rfl, (Host.Outcome.next.inj h).symm⟩
  | false =>
    obtain ⟨idx, hb, he⟩ := exec_illFormed s hw
    rw [he] at h
    exact .inr ⟨rfl, idx, hb, (Host.Outcome.next.inj h).symm⟩

/-- Only HLT's effect touches the status. -/
theorem effect_status (i : Instr) : (effect i s).status = if i = .hlt then .halted else s.status := by
  cases i <;> rfl

/-- No effect touches the parameters. -/
@[simp] theorem effect_cfg (i : Instr) : (effect i s).cfg = s.cfg := by
  cases i <;> rfl

/-- Every instruction answers a next state. -/
theorem exec_next (i : Instr) : ∃ t, exec i s = .next t := by
  cases hw : i.wellFormed with
  | true => exact ⟨_, exec_wellFormed s hw⟩
  | false => exact (exec_illFormed s hw).elim fun _ h => ⟨_, h.2⟩

end Sys2Proof.Machine
end

