-- ==== Sys2Proof/Laws/PerInstr.lean ====
section
/-! SUPPORT. Per-instruction families: one lemma per constructor of `Instr`. -/

namespace Sys2Proof.Laws.EncodedLength

/-- Whatever the opcode map, an instruction's encoding is as long as its format says: the opcode byte and its operand
bytes (30_encoding.md R60, R62). -/
def Statement (i : Instr) : Prop := ∀ m : OpcodeMap, (encode m i).length = i.opcode.length

theorem hlt : Statement .hlt := fun _ => rfl
theorem ret : Statement .ret := fun _ => rfl
theorem psh (ra : Byte) : Statement (.psh ra) := fun _ => rfl
theorem pop (ra : Byte) : Statement (.pop ra) := fun _ => rfl
theorem prn (ra : Byte) : Statement (.prn ra) := fun _ => rfl
theorem call (ra : Byte) : Statement (.call ra) := fun _ => rfl
theorem ldi (ra imm : Byte) : Statement (.ldi ra imm) := fun _ => rfl
theorem mul (ra rb : Byte) : Statement (.mul ra rb) := fun _ => rfl
theorem add (ra rb : Byte) : Statement (.add ra rb) := fun _ => rfl
theorem sub (ra rb : Byte) : Statement (.sub ra rb) := fun _ => rfl
theorem cmp (ra rb : Byte) : Statement (.cmp ra rb) := fun _ => rfl
theorem and (ra rb : Byte) : Statement (.and ra rb) := fun _ => rfl
theorem or (ra rb : Byte) : Statement (.or ra rb) := fun _ => rfl
theorem xor (ra rb : Byte) : Statement (.xor ra rb) := fun _ => rfl
theorem shl (ra rb : Byte) : Statement (.shl ra rb) := fun _ => rfl
theorem shr (ra rb : Byte) : Statement (.shr ra rb) := fun _ => rfl

end Sys2Proof.Laws.EncodedLength
end

