-- ==== Sys2Proof/Laws/Ports.lean ====
section
/-! SUPPORT. What the block's ports answer in each phase, and the fields an image load leaves alone. -/

namespace Sys2Proof.Machine

@[simp] theorem State.withImage_regs (s : State) (img : List Byte) : (s.withImage img).regs = s.regs := rfl
@[simp] theorem State.withImage_pc (s : State) (img : List Byte) : (s.withImage img).pc = s.pc := rfl
@[simp] theorem State.withImage_mem (s : State) (img : List Byte) :
    (s.withImage img).mem = Memory.writeAll s.mem 0 img := rfl
@[simp] theorem State.withImage_status (s : State) (img : List Byte) : (s.withImage img).status = s.status := rfl
@[simp] theorem State.withImage_out (s : State) (img : List Byte) : (s.withImage img).out = s.out := rfl
@[simp] theorem State.withImage_fl (s : State) (img : List Byte) : (s.withImage img).fl = s.fl := rfl
@[simp] theorem State.withImage_cfg (s : State) (img : List Byte) : (s.withImage img).cfg = s.cfg := rfl

/-- Every move that answers a next block: a load or the start before the start, a step of the CORE after it. -/
theorem Block.move_cases {m : BlockMove} {b b' : Block} (h : b.move m = .next b') :
    (b.phase = .beforeStart ∧ ∃ img, m = .loadImage img ∧ img.length ≤ 256 ∧
        b' = ⟨.beforeStart, b.core.withImage img⟩) ∨
      (b.phase = .beforeStart ∧ m = .start ∧ b' = ⟨.stepping, b.core⟩) ∨
      (b.phase = .stepping ∧ m = .step ∧ ∃ t, Machine.step b.core = .next t ∧ b' = ⟨.stepping, t⟩) := by
  obtain ⟨ph, s⟩ := b
  cases ph <;> cases m <;> simp only [Block.move, Block.loadImage, Block.start, Block.step] at h
  case beforeStart.loadImage img =>
    split at h
    · exact .inl ⟨rfl, img, rfl, ‹_›, (Host.Outcome.next.inj h).symm⟩
    · cases h
  case beforeStart.start => exact .inr (.inl ⟨rfl, rfl, (Host.Outcome.next.inj h).symm⟩)
  case beforeStart.step => cases h
  case stepping.loadImage => cases h
  case stepping.start => cases h
  case stepping.step =>
    split at h
    · exact .inr (.inr ⟨rfl, rfl, _, ‹_›, (Host.Outcome.next.inj h).symm⟩)
    · cases h
    · cases h

end Sys2Proof.Machine
end

