-- ==== Sys2Proof/Tests/Slice0.lean ====
section
/-! SUPPORT. The model's own tests. Expected results are those of spec/95_test_vectors.md (the vector's id is in the comment) and
of the encodings of 30_encoding.md R63. The witnesses show that the premises of each obligation can be met. -/

namespace Sys2Proof.Tests

open Sys2Proof Sys2Proof.Machine

/-! ## WellFormed refuses an ill-formed term, one for each check -/

theorem test_wf_psh_register : Instr.wellFormed (.psh 8) = false := by decide
theorem test_wf_pop_register : Instr.wellFormed (.pop 8) = false := by decide
theorem test_wf_prn_register : Instr.wellFormed (.prn 255) = false := by decide
theorem test_wf_call_register : Instr.wellFormed (.call 8) = false := by decide
theorem test_wf_ldi_register : Instr.wellFormed (.ldi 8 1) = false := by decide
theorem test_wf_mul_registers : (Instr.wellFormed (.mul 8 0) || Instr.wellFormed (.mul 0 8)) = false := by decide
theorem test_wf_add_registers : (Instr.wellFormed (.add 8 0) || Instr.wellFormed (.add 0 8)) = false := by decide
theorem test_wf_sub_registers : (Instr.wellFormed (.sub 8 0) || Instr.wellFormed (.sub 0 8)) = false := by decide
theorem test_wf_cmp_registers : (Instr.wellFormed (.cmp 8 0) || Instr.wellFormed (.cmp 0 8)) = false := by decide
theorem test_wf_and_registers : (Instr.wellFormed (.and 8 0) || Instr.wellFormed (.and 0 8)) = false := by decide
theorem test_wf_or_registers : (Instr.wellFormed (.or 8 0) || Instr.wellFormed (.or 0 8)) = false := by decide
theorem test_wf_xor_registers : (Instr.wellFormed (.xor 8 0) || Instr.wellFormed (.xor 0 8)) = false := by decide
theorem test_wf_shl_registers : (Instr.wellFormed (.shl 8 0) || Instr.wellFormed (.shl 0 8)) = false := by decide
theorem test_wf_shr_registers : (Instr.wellFormed (.shr 8 0) || Instr.wellFormed (.shr 0 8)) = false := by decide
theorem test_wf_accepts : (Instr.wellFormed (.mul 7 0) && Instr.wellFormed (.ldi 7 255)) = true := by decide

/-! ## Decoding: one word per constructor, its bits written from R63's table -/

def ext : Config := { Config.default with aluExtension := true }

theorem test_decode_hlt : decode ext ⟨0b00000001, 0xC8, 0xFF⟩ = .ok .hlt := by decide
theorem test_decode_ret : decode ext ⟨0b00010001, 0xC8, 0xFF⟩ = .ok .ret := by decide
theorem test_decode_psh : decode ext ⟨0b01000101, 0b00000011, 0xFF⟩ = .ok (.psh 3) := by decide
theorem test_decode_pop : decode ext ⟨0b01000110, 0b00000111, 0xFF⟩ = .ok (.pop 7) := by decide
theorem test_decode_prn : decode ext ⟨0b01000111, 0b00000100, 0x63⟩ = .ok (.prn 4) := by decide
theorem test_decode_call : decode ext ⟨0b01010000, 0b00000001, 0xFF⟩ = .ok (.call 1) := by decide
theorem test_decode_ldi : decode ext ⟨0b10000010, 0b00000100, 0b11001000⟩ = .ok (.ldi 4 200) := by decide
theorem test_decode_mul : decode ext ⟨0b10100010, 0b00000010, 0b00000011⟩ = .ok (.mul 2 3) := by decide
theorem test_decode_add : decode ext ⟨0b10100000, 0b00000010, 0b00000011⟩ = .ok (.add 2 3) := by decide
theorem test_decode_sub : decode ext ⟨0b10100001, 0b00000010, 0b00000011⟩ = .ok (.sub 2 3) := by decide
theorem test_decode_cmp : decode ext ⟨0b10100111, 0b00000010, 0b00000011⟩ = .ok (.cmp 2 3) := by decide
theorem test_decode_and : decode ext ⟨0b10101000, 0b00000010, 0b00000011⟩ = .ok (.and 2 3) := by decide
theorem test_decode_or : decode ext ⟨0b10101010, 0b00000010, 0b00000011⟩ = .ok (.or 2 3) := by decide
theorem test_decode_xor : decode ext ⟨0b10101011, 0b00000010, 0b00000011⟩ = .ok (.xor 2 3) := by decide
theorem test_decode_shl : decode ext ⟨0b10101100, 0b00000010, 0b00000011⟩ = .ok (.shl 2 3) := by decide
theorem test_decode_shr : decode ext ⟨0b10101101, 0b00000010, 0b00000011⟩ = .ok (.shr 2 3) := by decide

/-- V-D7: the extension byte is illegal when the extension is off. -/
theorem test_decode_add_off : decode Config.default ⟨0xA0, 0, 1⟩ = .error (.unrecognized 0xA0) := by decide
/-- V-D6: operand count 3. -/
theorem test_decode_count3 : decode ext ⟨0xC0, 0, 0⟩ = .error (.unrecognized 0xC0) := by decide
/-- R170: DIV's LS-8 byte stays illegal with the extension on. -/
theorem test_decode_div : decode ext ⟨0xA3, 0, 1⟩ = .error (.unrecognized 0xA3) := by decide
theorem test_decode_truncated : decodeBytes ext [0x01, 0x00] = .error .truncated := by decide
theorem test_table_word_ldi : decodeTableWord 24 0xC80482 = some (.ldi 4 200) := by decide
theorem test_table_word_hlt : decodeTableWord 8 0x0101 = some .hlt := by decide

/-! ## One step each, from reset with the image and the registers the vector names -/

/-- A machine of a named mode with the extension on or off. -/
def cfgOf (mode : PcAdvanceMode) (e : Bool) : Config := { Config.default with pcAdvanceMode := mode, aluExtension := e }

/-- Reset with bytes at an address, pc there, and R0, R1 set. -/
def boot (c : Config) (addr : Nat) (img : List Byte) (r0 r1 : Byte) : State :=
  let s := (State.resetWith c).setReg 0 r0 |>.setReg 1 r1
  (s.setMem (Memory.writeAll s.mem addr img)).setPc addr

/-- The next state satisfies a check. -/
def after (r : Result) (p : State → Bool) : Bool :=
  match r with
  | .next t => p t
  | _ => false

/-- The step faults with `f` and changes nothing else. -/
def faults (s : State) (f : FaultRecord) : Bool :=
  after (step s) fun t => decide (t = { s with status := .faulted f })

def C : Config := cfgOf .correct true
def P : Config := cfgOf .preserve true

/-- V-D1. -/
theorem test_fetch_254 : faults (boot C 254 [0x01] 0 0) (.outOfRange 256) = true := by decide
/-- V-D8: HLT at 253. -/
theorem test_hlt_253 : after (step (boot C 253 [0x01] 0 0)) (fun t => decide (t.status = .halted ∧ t.pc = 254)) = true := by
  decide
/-- V-D9. -/
theorem test_hlt_operands_ignored :
    after (step (boot C 0 [0x01, 0xFF, 0xFF] 0 0)) (fun t => decide (t.status = .halted ∧ t.pc = 1)) = true := by decide
/-- V-D10: the reads come before the lookup. -/
theorem test_fetch_before_lookup : faults (boot C 254 [0x00, 0x01] 0 0) (.outOfRange 256) = true := by decide
/-- V-D5, W7. -/
theorem test_unrecognized_zero :
    faults (State.resetWith C) (.unrecognized 0 0 #v[0, 0, 0, 0, 0, 0, 0, 0xF4]) = true := by decide
/-- V-D3. -/
theorem test_fetch_256 : faults ((State.resetWith C).setPc 256) (.outOfRange 256) = true := by decide
/-- V-L3. -/
theorem test_ldi_sp : after (step (boot C 0 [0x82, 7, 0x10] 0 0)) (fun t => decide (t.sp = 0x10 ∧ t.pc = 3)) = true := by
  decide
/-- V-L5. -/
theorem test_ldi_bad : faults (boot C 0 [0x82, 0xFF, 1] 0 0) (.badRegister 255 0) = true := by decide
/-- V-O2. -/
theorem test_prn_sp : after (step (boot C 0 [0x47, 7] 0 0)) (fun t => decide (t.out = [244] ∧ t.pc = 2)) = true := by decide
/-- V-O4. -/
theorem test_prn_bad : faults (boot C 0 [0x47, 9] 0 0) (.badRegister 9 0) = true := by decide
/-- V-M3. -/
theorem test_mul_square : after (step (boot C 0 [0xA2, 0, 0] 255 0)) (fun t => decide (t.reg 0 = 1)) = true := by decide
/-- V-M8: a is checked before b. -/
theorem test_mul_bad_order : faults (boot C 0 [0xA2, 8, 9] 0 0) (.badRegister 8 0) = true := by decide
/-- V-S2: the old SP is pushed. -/
theorem test_psh_sp : after (step (boot C 0 [0x45, 7] 0 0))
    (fun t => decide (t.sp = 0xF3 ∧ Memory.read t.mem 0xF3 = 0xF4)) = true := by decide
/-- V-S3: SP wraps. -/
theorem test_psh_wrap : after (step ((boot C 0 [0x45, 0] 0xAB 0).setReg 7 0))
    (fun t => decide (t.sp = 0xFF ∧ Memory.read t.mem 0xFF = 0xAB)) = true := by decide
/-- V-S6: the increment is overwritten. -/
theorem test_pop_sp : after (step (let s := (boot C 0 [0x46, 7] 0 0).setReg 7 0xF3; s.setMem (Memory.write s.mem 0xF3 0x42)))
    (fun t => decide (t.sp = 0x42 ∧ t.pc = 2)) = true := by decide
/-- V-S7: SP wraps. -/
theorem test_pop_wrap : after (step (let s := (boot C 0 [0x46, 0] 0 0).setReg 7 0xFF; s.setMem (Memory.write s.mem 0xFF 9)))
    (fun t => decide (t.reg 0 = 9 ∧ t.sp = 0)) = true := by decide
/-- V-C2 in Preserve mode: CALL R7 reads its target after the push. -/
theorem test_call_sp_preserve : after (step (boot P 3 [0x50, 7] 0 0))
    (fun t => decide (t.sp = 0xF3 ∧ Memory.read t.mem 0xF3 = 5 ∧ t.pc = 245)) = true := by decide
/-- V-C1 in Correct mode. -/
theorem test_call_correct : after (step (boot C 3 [0x50, 1] 0 8))
    (fun t => decide (t.sp = 0xF3 ∧ Memory.read t.mem 0xF3 = 5 ∧ t.pc = 8)) = true := by decide
/-- V-T2 in Preserve mode. -/
theorem test_ret_preserve : after (step (boot P 0 [0x11] 0 0)) (fun t => decide (t.sp = 0xF5 ∧ t.pc = 1)) = true := by decide
/-- V-T3 in Correct mode. -/
theorem test_ret_wrap_correct :
    after (step (let s := (boot C 0 [0x11] 0 0).setReg 7 0xFF; s.setMem (Memory.write s.mem 0xFF 0x20)))
      (fun t => decide (t.sp = 0 ∧ t.pc = 32)) = true := by decide
/-- V-X1. -/
theorem test_add_wraps : after (step (boot C 0 [0xA0, 0, 1] 200 100)) (fun t => decide (t.reg 0 = 44 ∧ t.reg 1 = 100)) = true := by
  decide
/-- V-X3. -/
theorem test_sub_borrows : after (step (boot C 0 [0xA1, 0, 1] 3 5)) (fun t => decide (t.reg 0 = 254)) = true := by decide
/-- V-X19. -/
theorem test_sub_bad : faults (boot C 0 [0xA1, 0, 9] 0 0) (.badRegister 9 0) = true := by decide
/-- V-X5. -/
theorem test_and : after (step (boot C 0 [0xA8, 0, 1] 0xCC 0xAA)) (fun t => decide (t.reg 0 = 0x88)) = true := by decide
/-- V-X6. -/
theorem test_or : after (step (boot C 0 [0xAA, 0, 1] 0xCC 0xAA)) (fun t => decide (t.reg 0 = 0xEE)) = true := by decide
/-- V-X7. -/
theorem test_xor : after (step (boot C 0 [0xAB, 0, 1] 0xCC 0xAA)) (fun t => decide (t.reg 0 = 0x66)) = true := by decide
/-- V-X9. -/
theorem test_shl : after (step (boot C 0 [0xAC, 0, 1] 0x81 1)) (fun t => decide (t.reg 0 = 0x02)) = true := by decide
/-- V-X12: the count is the register's own old value. -/
theorem test_shl_self : after (step (boot C 0 [0xAC, 0, 0] 3 0)) (fun t => decide (t.reg 0 = 24)) = true := by decide
/-- V-X15: logical. -/
theorem test_shr_logical : after (step (boot C 0 [0xAD, 0, 1] 0x80 1)) (fun t => decide (t.reg 0 = 0x40)) = true := by decide
/-- V-X14: the whole count. -/
theorem test_shr_large : after (step (boot C 0 [0xAD, 0, 1] 0xFF 200)) (fun t => decide (t.reg 0 = 0)) = true := by decide
/-- V-X16. -/
theorem test_cmp_less : after (step (boot C 0 [0xA7, 0, 1] 5 7)) (fun t => decide (t.fl = 0b100 ∧ t.reg 0 = 5)) = true := by
  decide
/-- V-X17: unsigned. -/
theorem test_cmp_unsigned : after (step (boot C 0 [0xA7, 0, 1] 0xFF 1)) (fun t => decide (t.fl = 0b010)) = true := by decide
/-- R26: the largest pc, a CALL to 255 in Preserve mode. -/
theorem test_pc_257 : after (step (boot P 3 [0x50, 1] 0 255)) (fun t => decide (t.pc = 257)) = true := by decide

/-! ## The host's interface -/

theorem test_fetch_word_add :
    after (step (State.reset.withFetchWord 24 0x0700A0)) (fun t => decide (t.reg 0 = 0xF4 ∧ t.pc = 3)) = true := by decide
theorem test_fetch_word_mul :
    after (step (State.reset.withFetchWord 24 0x0707A2)) (fun t => decide (t.sp = 0x90 ∧ t.cfg.aluExtension = false)) = true := by
  decide
/-- R224. -/
theorem test_image_too_large : ∀ n, n = 257 →
    (Block.fresh C).loadImage (List.replicate n 0) = .refused (.oversizedImage n) := by
  intro n h
  have hn : ¬ n ≤ 256 := by omega
  simp only [Block.fresh, Block.loadImage]
  rw [List.length_replicate, if_neg hn]
/-- Check a block. -/
def blockAfter (r : Host.Outcome Block Fault Refusal) (p : Block → Bool) : Bool :=
  match r with
  | .next b => p b
  | _ => false
/-- W5 through the ports: load `01`, start, one step. -/
theorem test_session_hlt : blockAfter (Block.moves [.loadImage [0x01], .start, .step] (Block.fresh C))
    (fun b => decide (b.core.status = .halted ∧ b.core.pc = 1 ∧ b.core.sp = 0xF4 ∧ b.core.out = [])) = true := by decide
/-- R35: no image load after the start. -/
theorem test_no_load_after_start :
    Block.moves [.start, .loadImage [0x01]] (Block.fresh C) = .refused .imageAfterStart := by rfl
/-- R35: one start. -/
theorem test_start_once : Block.moves [.start, .start] (Block.fresh C) = .refused .alreadyStarted := by rfl
/-- R37: 0 renders as 0, 255 as 255. -/
theorem test_render : renderOutput (emit 255 (emit 0 State.reset)) = "0\n255\n" := by rfl
theorem test_diagnostic_top : (diagnosticRead (boot C 255 [0x01] 0 0)).bytes = [some 0x01, none, none] := by decide

/-! ## Witnesses: concrete values that meet the premises of each statement that has some -/

/-- A Running state of each clause, in an admissible configuration, with memory in canonical form. -/
def W (pc : Nat) (img : List Byte) : State := boot P pc img 5 7

theorem witness_running_wf : (W 3 [0x50, 1]).status = .running ∧ (W 3 [0x50, 1]).pc ≤ 253 ∧
    Memory.wf (W 3 [0x50, 1]).mem = true ∧ (W 3 [0x50, 1]).cfg.admissible = true := by decide

theorem witness_DecodeOfEncodeIsIdentity : P.admissible = true ∧ Opcode.shr ∈ P.enabled ∧
    (cfgOf .correct false).admissible = true ∧ Opcode.hlt ∈ (cfgOf .correct false).enabled := by decide

theorem witness_EncodeOfDecodeIsTheBytesRead : P.admissible = true ∧ decode P ⟨0x45, 3, 9⟩ = .ok (.psh 3) := by decide

theorem witness_TopBitsGiveOperandCount : P.admissible = true ∧ decode P ⟨0xAD, 3, 9⟩ = .ok (.shr 3 9) ∧
    decode P ⟨0xAD, 1, 2⟩ = .ok (.shr 1 2) ∧ (Instr.shr 1 2).opcode = (Instr.shr 3 9).opcode := by decide

theorem witness_IllegalOpcodes : (∀ o ∈ P.enabled, P.opcodeMap.byteOf o ≠ 0xFF) ∧ decode P ⟨0x01, 0, 0⟩ = .ok .hlt ∧
    (W 253 [0xFF]).status = .running ∧ (W 253 [0xFF]).pc ≤ 253 ∧
    decode (W 253 [0xFF]).cfg (bytesAtPc (W 253 [0xFF])) = .error (.unrecognized 0xFF) ∧ 0xC0 ≤ (0xC0 : Byte).toNat := by decide

theorem witness_DispatchByWholeOpcode_match : (W 253 [0x01]).status = .running ∧ (W 253 [0x01]).pc ≤ 253 ∧
    Opcode.hlt ∈ P.enabled ∧ P.opcodeMap.byteOf .hlt = (bytesAtPc (W 253 [0x01])).op ∧
    ∀ p ∈ P.enabled, P.opcodeMap.byteOf p = (bytesAtPc (W 253 [0x01])).op → p = .hlt := by decide

theorem witness_DispatchByWholeOpcode_none : (W 253 [0xFF]).status = .running ∧ (W 253 [0xFF]).pc ≤ 253 ∧
    ∀ o ∈ (W 253 [0xFF]).cfg.enabled, (W 253 [0xFF]).cfg.opcodeMap.byteOf o ≠ (bytesAtPc (W 253 [0xFF])).op := by decide

theorem witness_UnusedOperandBytesAreIgnored : decode P ⟨0x11, 1, 2⟩ = .ok .ret ∧ Instr.ret.opcode.format = .f0 ∧
    decode P ⟨0x46, 1, 2⟩ = .ok (.pop 1) ∧ (Instr.pop 1).opcode.format = .f1r := by decide

theorem witness_StepRunsDecodedInstruction : (W 253 [0x01]).status = .running ∧ (W 253 [0x01]).pc ≤ 253 ∧
    decode (W 253 [0x01]).cfg (bytesAtPc (W 253 [0x01])) = .ok .hlt := by decide

theorem witness_DecodeBeyondMemoryFaults : ((W 0 []).setPc 254).status = .running ∧ ((W 0 []).setPc 254).pc = 254 ∧
    ((W 0 []).setPc 255).status = .running ∧ ((W 0 []).setPc 255).pc = 255 ∧
    ((W 0 []).setPc 256).status = .running ∧ 256 ≤ ((W 0 []).setPc 256).pc := by decide

theorem witness_LoopStepsExactlyWhileRunning : (W 0 []).status = .running ∧
    ((W 0 []).setStatus .halted).status ≠ .running ∧
    ((W 0 []).setStatus (.faulted (.outOfRange 256))).status ≠ .running := by decide

theorem witness_StepAfterTheEndStopsByName : ((W 0 []).setStatus .halted).status = .halted ∧
    ((W 0 []).setStatus (.faulted .unsupportedAluOp)).status = .faulted .unsupportedAluOp := by decide

theorem witness_FaultsChangeOnlyStatus :
    after (step (W 0 [0x00])) (fun t => decide (t.status = .faulted (.unrecognized 0 0 (W 0 []).regs))) = true := by decide

theorem witness_StepFollowsFaultPriority : (W 0 [0x82, 8, 0]).status = .running ∧
    firstFault (W 0 [0x82, 8, 0]) = some (.badRegister 8 0) ∧ (W 0 [0x82, 7, 0]).status = .running ∧
    firstFault (W 0 [0x82, 7, 0]) = none ∧ firstFault ((W 0 []).setPc 255) = some (.outOfRange 256) := by decide

theorem witness_OnlyHltSetsHalted : after (step (W 253 [0x01])) (fun t => t.halted) = true ∧
    ((W 0 []).setStatus .halted).halted = true ∧ after (exec (.ldi 0 1) (W 0 [])) (fun _ => true) = true := by decide

theorem witness_StepKeepsInvariant : State.Inv (W 3 [0x50, 1]) ∧ after (step (W 3 [0x50, 1])) (fun _ => true) = true :=
  ⟨⟨by decide, by decide, .inl (by decide), by decide⟩, by decide⟩

theorem witness_ParametersNeverChange : after (step (W 3 [0x50, 1])) (fun _ => true) = true := by decide

theorem witness_OnlyPrnEmits : after (exec (.prn 7) (W 0 [])) (fun _ => true) = true ∧ (7 : Byte).toNat < 8 ∧
    after (exec (.prn 8) (W 0 [])) (fun _ => true) = true ∧ (∀ ra : Byte, ra.toNat < 8 → Instr.prn 8 ≠ .prn ra) := by
  refine ⟨by decide, by decide, by decide, ?_⟩
  intro ra h e
  have : ra = 8 := (Instr.prn.inj e).symm
  subst this
  exact absurd h (by decide)

theorem witness_OnlyPushesWriteMemory : Memory.wf (W 0 []).mem = true ∧
    after (exec (.psh 0) (W 0 [])) (fun t => decide (Memory.read t.mem 0xF3 ≠ Memory.read (W 0 []).mem 0xF3)) = true := by decide

theorem witness_OnlyDestinationAndSpChange :
    after (exec (.ldi 0 1) (W 0 [])) (fun t => decide (t.reg 0 ≠ (W 0 []).reg 0)) = true ∧
    after (exec .ret (W 0 [])) (fun t => decide (t.reg 7 ≠ (W 0 []).reg 7)) = true := by decide

theorem witness_OnlyCmpWritesFlags : after (exec (.cmp 0 1) (W 0 [])) (fun t => decide (t.fl ≠ (W 0 []).fl)) = true := by decide

theorem witness_BaseCoreHasNoExtension : (cfgOf .correct false).aluExtension = false ∧
    decode (cfgOf .correct false) ⟨0xA2, 0, 1⟩ = .ok (.mul 0 1) ∧
    after (step (boot (cfgOf .correct false) 0 [0xA2, 0, 1] 2 3)) (fun t => decide (t.fl = 0)) = true := by decide

theorem witness_OrdinaryInstructionsAdvanceByLength : (Instr.shr 7 0).wellFormed = true ∧ (Instr.shr 7 0).jumps = false := by
  decide

theorem witness_FlagsAndOutputAreNeverRead : after (step (W 0 [0xA7, 0, 1])) (fun _ => true) = true := by decide

theorem witness_MemReadContract : 255 ≤ 255 ∧ 255 < 256 := by decide

theorem witness_MemWriteContract : Memory.wf (W 0 [1, 2]).mem = true ∧ 255 ≤ 255 ∧ 255 < 256 := by decide

theorem witness_CanonicalMemoriesAreEqualWhenReadsAgree :
    Memory.wf (Memory.write (Memory.write [] 0 1) 255 2) = true ∧
    Memory.wf (Memory.write (Memory.write [] 255 2) 0 1) = true ∧
    ∀ addr, Memory.read (Memory.write (Memory.write [] 0 1) 255 2) addr =
      Memory.read (Memory.write (Memory.write [] 255 2) 0 1) addr :=
  ⟨by decide, by decide, fun _ => rfl⟩

/-- Memory premise of the stack statements, at the edges of SP. -/
theorem witness_StackEngineWrapsAndNeverFaults : Memory.wf ((W 0 [1]).setReg 7 0).mem = true ∧
    Memory.wf ((W 0 [1]).setReg 7 255).mem = true := by decide

theorem witness_LdiLoadsLiteral : (7 : Byte).toNat < 8 := by decide
theorem witness_PrnEmitsRegister : (7 : Byte).toNat < 8 := by decide
theorem witness_PopLoadsFromSp : (7 : Byte).toNat < 8 := by decide
theorem witness_LdiThenPrnEmitsLiteral : (7 : Byte).toNat < 8 := by decide
theorem witness_MulWrapsModulo256 : (7 : Byte).toNat < 8 ∧ (0 : Byte).toNat < 8 := by decide
theorem witness_AddWrapsModulo256 : (7 : Byte).toNat < 8 ∧ (7 : Byte).toNat < 8 := by decide
theorem witness_SubWrapsModulo256 : (0 : Byte).toNat < 8 ∧ (7 : Byte).toNat < 8 := by decide
theorem witness_LogicWorksBitByBit : (7 : Byte).toNat < 8 ∧ (0 : Byte).toNat < 8 := by decide
theorem witness_CmpSetsExactlyOneFlag : (7 : Byte).toNat < 8 ∧ (0 : Byte).toNat < 8 ∧
    3 ≤ 3 := by decide
/-- The registers, and a count of exactly 8. -/
theorem witness_ShlShiftsByWholeCount : (7 : Byte).toNat < 8 ∧ (0 : Byte).toNat < 8 ∧
    8 ≤ (boot P 0 [] 8 255).regs[(0 : Byte).toNat].toNat := by decide
/-- The registers, and a count of 255. -/
theorem witness_ShrShiftsByWholeCount : (7 : Byte).toNat < 8 ∧ (1 : Byte).toNat < 8 ∧
    8 ≤ (boot P 0 [] 8 255).regs[(1 : Byte).toNat].toNat := by decide

theorem witness_PshStoresBelowSp : (7 : Byte).toNat < 8 ∧ Memory.wf (W 0 [0x45, 7]).mem = true := by decide

theorem witness_CallPushesReturnAddressAndJumps : (7 : Byte).toNat < 8 ∧ Memory.wf (W 253 [0x50, 7]).mem = true ∧
    (W 253 [0x50, 7]).pc ≤ 253 := by decide

theorem witness_BadRegisterIsRaisedBeforeAnyWrite : 8 ≤ (8 : Byte).toNat ∧ (7 : Byte).toNat < 8 ∧
    Instr.shr 7 8 ∈ [Instr.mul 7 8, .add 7 8, .sub 7 8, .cmp 7 8, .and 7 8, .or 7 8, .xor 7 8, .shl 7 8, .shr 7 8] := by decide

theorem witness_PshThenPopIsIdentity : (7 : Byte).toNat < 8 ∧ Memory.wf ((W 0 []).setReg 7 0).mem = true := by decide

/-- A CALL through R7 at the highest pc, in each mode, and the routine that does nothing: the state after the CALL itself. -/
theorem witness_CallRetRoundTrip : ∀ mode : PcAdvanceMode,
    (7 : Byte).toNat < 8 ∧ Memory.wf (boot (cfgOf mode true) 253 [0x50, 7] 0 0).mem = true ∧
      (boot (cfgOf mode true) 253 [0x50, 7] 0 0).pc ≤ 253 ∧
      (boot (cfgOf mode true) 253 [0x50, 7] 0 0).cfg.pcAdvanceMode = mode ∧
      ∃ t u : State, exec (.call 7) (boot (cfgOf mode true) 253 [0x50, 7] 0 0) = .next t ∧ u.regs[7] = t.regs[7] ∧
        Memory.read u.mem u.regs[7].toNat = Memory.read t.mem t.regs[7].toNat ∧
        u.cfg.pcAdvanceMode = t.cfg.pcAdvanceMode := by
  intro mode
  obtain ⟨t, ht⟩ := exec_next (boot (cfgOf mode true) 253 [0x50, 7] 0 0) (.call 7)
  refine ⟨by decide, ?_, ?_, rfl, t, t, ht, rfl, rfl, rfl⟩ <;> cases mode <;> decide

theorem witness_PushedByteIsTheNextOpcode : (7 : Byte).toNat < 8 ∧ Memory.wf ((W 251 []).setReg 7 254).mem = true ∧
    ((W 251 []).setReg 7 254).pc ≤ 251 ∧
    (((W 251 []).setReg 7 254).regs[7] - 1).toNat = ((W 251 []).setReg 7 254).pc + 2 := by decide

theorem witness_PortsActOnlyInTheirPhase : (Block.fresh C).phase = .beforeStart ∧ ([] : List Byte).length ≤ 256 ∧
    (⟨.stepping, State.resetWith C⟩ : Block).phase = .stepping ∧
    after (step (State.resetWith C)) (fun _ => true) = true ∧
    step ((State.resetWith C).setStatus .halted) = .fault .stepWhenHalted :=
  ⟨rfl, by decide, rfl, by decide, rfl⟩

theorem witness_SessionsLoadThenStartThenStep :
    blockAfter (Block.moves [] (Block.fresh C)) (fun _ => true) = true ∧
    blockAfter (Block.moves [.loadImage [0x00, 0x02], .loadImage [0x01], .start, .step] (Block.fresh C))
      (fun b => decide (b.phase = .stepping)) = true := by decide

theorem witness_ImageLoad : (List.replicate 256 (1 : Byte)).length ≤ 256 ∧ 256 < (List.replicate 257 (1 : Byte)).length := by
  rw [List.length_replicate, List.length_replicate]
  decide

end Sys2Proof.Tests
end

section
/-! PROOF. The halted flag (10_state.md R27): what the status after an instruction says, and that no instruction reads the
status before it. -/

namespace Sys2Proof.Machine

variable (s : State)

theorem State.halted_eq_true : s.halted = true ↔ s.status = .halted := by simp [State.halted]

/-- From Running, an instruction leaves the machine halted exactly when it is HLT. -/
theorem exec_halted_iff {i : Instr} {t : State} (hr : s.status = .running) (h : exec i s = .next t) :
    t.status = .halted ↔ i = .hlt := by
  obtain ⟨-, rfl⟩ | ⟨hw, idx, -, rfl⟩ := exec_cases s h
  · by_cases hi : i = .hlt <;> simp [effect_status, hi, hr]
  · have hi : i ≠ .hlt := by rintro rfl; cases hw
    simp [hi]

/-- A step leaves the machine halted exactly when the bytes at pc decode to HLT. -/
theorem step_halted_iff {t : State} (h : step s = .next t) :
    t.status = .halted ↔ s.pc ≤ 253 ∧ decode s.cfg (bytesAtPc s) = .ok .hlt := by
  obtain ⟨hr, ⟨hp, rfl⟩ | ⟨hp, w, hf, hw⟩⟩ := step_cases s h
  · simp [hp]
  · obtain rfl : bytesAtPc s = w := Except.ok.inj ((fetch_ok s hp).symm.trans hf)
    obtain ⟨i, hd, he⟩ | ⟨e, hd, rfl⟩ := hw
    · simp [exec_halted_iff s hr he, hp, hd]
    · simp [hd]

/-- No step is defined from a halted state. -/
theorem step_of_halted (h : s.status = .halted) : step s = .fault .stepWhenHalted := by
  simp [step, h]

/-- The loop stays where no step is defined. -/
theorem runLoop_of_step_fault {f : Fault} (h : step s = .fault f) (n : Nat) : runLoop n s = s := by
  cases n with
  | zero => rfl
  | succ n => simp [runLoop, h]

/-- The effect of an instruction carries the status through and reads it nowhere. -/
theorem effect_setStatus (i : Instr) (x : Status) :
    effect i (s.setStatus x) = (effect i s).setStatus (effect i (s.setStatus x)).status := by
  cases i <;> rfl

/-- From the same state with another status, an instruction answers the same but for the status. -/
theorem exec_setStatus {i : Instr} {t : State} (x : Status) (h : exec i s = .next t) :
    ∃ u, exec i (s.setStatus x) = .next u ∧ u = t.setStatus u.status := by
  obtain ⟨hw, rfl⟩ | ⟨hw, idx, hb, rfl⟩ := exec_cases s h
  · exact ⟨_, exec_wellFormed _ hw, effect_setStatus s i x⟩
  · obtain ⟨idx', hb', he⟩ := exec_illFormed (s.setStatus x) hw
    obtain rfl : idx = idx' := Option.some.inj (hb.symm.trans hb')
    exact ⟨_, he, rfl⟩

/-- Settles O16: by `step_halted_iff`, `step_of_halted` and `exec_setStatus`. -/
theorem onlyHltSetsHalted : Obligations.OnlyHltSetsHalted := by
  refine ⟨fun s t h => ?_, fun s h => ?_, fun i s t x h => exec_setStatus s x h⟩
  · rw [State.halted_eq_true]
    exact step_halted_iff s h
  · have hf := step_of_halted s (s.halted_eq_true.1 h)
    exact ⟨fun t => by simp [hf], runLoop_of_step_fault s hf⟩

end Sys2Proof.Machine
end

section
/-! PROOFS of 20_memory.md: what a checked read answers. -/

namespace Sys2Proof.Machine

/-- Settles O27: the two clauses are `memRead_ok` and `memRead_error`, since 255 is the last address below `memSize`. -/
theorem memReadContract : Obligations.MemReadContract := by
  intro s addr
  constructor
  · intro h
    exact memRead_ok s (Nat.lt_succ_of_le h)
  · intro h
    exact memRead_error s (Nat.not_lt_of_ge h)

end Sys2Proof.Machine
end

section
/-! PROOFS of 30_encoding.md: the opcode byte gives the length, and selects the instruction as a whole byte. -/

namespace Sys2Proof

/-- The length an opcode byte encodes, as a quotient: bits 7..6 are the byte divided by 64 (R60). -/
theorem opLength_eq (op : Byte) : opLength op = op.toNat / 64 + 1 := by
  have hdiv : op.toNat / 64 < 4 := by have := op.isLt; omega
  simp [opLength, Nat.shiftRight_eq_div_pow, Nat.mod_eq_of_lt hdiv]

/-- An instruction has as many operand bytes as its operation's format (R62). -/
theorem Instr.operandBytes_length (i : Instr) : i.operandBytes.length = i.opcode.format.operandCount := by
  cases i <;> rfl

/-- In an admissible configuration an enabled operation's byte encodes its length (R64). -/
theorem Config.opLength_byteOf {c : Config} (hc : c.admissible = true) {o : Opcode} (ho : o ∈ c.enabled) :
    opLength (c.opcodeMap.byteOf o) = o.length := by
  obtain ⟨-, hlen⟩ := Bool.and_eq_true_iff.1 hc
  exact beq_iff_eq.1 (List.all_eq_true.1 hlen o ho)

/-- The lookup answers the one enabled operation that has the byte (R65). -/
theorem Config.lookup_eq_some_of_unique {c : Config} {op : Byte} {o : Opcode} (ho : o ∈ c.enabled)
    (hop : c.opcodeMap.byteOf o = op) (huniq : ∀ p ∈ c.enabled, c.opcodeMap.byteOf p = op → p = o) :
    c.lookup op = some o := by
  cases h : c.lookup op with
  | none => exact absurd hop (Config.lookup_none.1 h o ho)
  | some p =>
    obtain ⟨hp, hpop⟩ := Config.lookup_some h
    rw [huniq p hp hpop]

/-- Bytes whose opcode the lookup finds decode to that operation's instruction. -/
theorem decode_of_lookup_some {c : Config} {w : Fetched} {o : Opcode} (h : c.lookup w.op = some o) :
    decode c w = .ok (o.toInstr w.a w.b) := by
  simp [decode_eq, h]

/-- Bytes whose opcode the lookup does not find have no meaning (R68). -/
theorem decode_of_lookup_none {c : Config} {w : Fetched} (h : c.lookup w.op = none) :
    decode c w = .error (.unrecognized w.op) := by
  simp [decode_eq, h]

/-- What decodes is the enabled operation of the opcode byte, made of the two bytes after it. -/
theorem decode_ok_cases {c : Config} {w : Fetched} {i : Instr} (h : decode c w = .ok i) :
    i.opcode ∈ c.enabled ∧ c.opcodeMap.byteOf i.opcode = w.op ∧ i = i.opcode.toInstr w.a w.b := by
  cases hl : c.lookup w.op with
  | none => cases (decode_of_lookup_none hl).symm.trans h
  | some o =>
    obtain rfl : o.toInstr w.a w.b = i := Except.ok.inj ((decode_of_lookup_some hl).symm.trans h)
    obtain ⟨ho, hop⟩ := Config.lookup_some hl
    simp [ho, hop]

/-- In an admissible configuration bits 7..6 of the opcode byte count the operand bytes of what decodes (R60). -/
theorem decode_operandBytes_length {c : Config} {w : Fetched} {i : Instr} (hc : c.admissible = true)
    (h : decode c w = .ok i) : i.operandBytes.length = w.op.toNat / 64 := by
  obtain ⟨hi, hop, -⟩ := decode_ok_cases h
  have hlen : w.op.toNat / 64 + 1 = i.operandBytes.length + 1 :=
    calc w.op.toNat / 64 + 1 = opLength w.op := (opLength_eq w.op).symm
      _ = i.opcode.length := hop ▸ Config.opLength_byteOf hc hi
      _ = i.operandBytes.length + 1 := by rw [Instr.operandBytes_length, Opcode.length]
  exact (Nat.succ.inj hlen).symm

end Sys2Proof

namespace Sys2Proof.Machine

/-- Settles O5: by `decode_ok_cases` for the opcode byte and `decode_operandBytes_length` for the count. -/
theorem topBitsGiveOperandCount : Obligations.TopBitsGiveOperandCount := by
  intro c w i hc h
  obtain ⟨-, hop, -⟩ := decode_ok_cases h
  have hcount := decode_operandBytes_length hc h
  have hencode : encode c.opcodeMap i = w.op :: i.operandBytes := by rw [encode, hop]
  refine ⟨hencode, hcount, ?_, fun w' i' h' hsame => ?_⟩
  · rw [hencode, List.length_cons, hcount]
  · obtain ⟨-, hop', -⟩ := decode_ok_cases h'
    rw [← hop', hsame, hop]

variable (s : State)

/-- A step runs the operation that the lookup finds for the opcode byte at pc (R65). -/
theorem step_of_lookup_some {o : Opcode} (hr : s.status = .running) (hp : s.pc ≤ 253)
    (hl : s.cfg.lookup (bytesAtPc s).op = some o) :
    step s = exec (o.toInstr (bytesAtPc s).a (bytesAtPc s).b) s := by
  simp [step_of_running s hr hp, runFetched, decode_of_lookup_some hl]

/-- A step whose opcode byte is in no enabled entry changes the status alone (40_execution_loop.md R82). -/
theorem step_of_lookup_none (hr : s.status = .running) (hp : s.pc ≤ 253)
    (hl : s.cfg.lookup (bytesAtPc s).op = none) :
    step s = faultsWith (.unrecognized (bytesAtPc s).op s.pc s.regs) s := by
  simp only [step_of_running s hr hp, runFetched, decode_of_lookup_none hl]
  rfl

/-- Settles O7: the unique entry is what the lookup answers, and no entry is exactly no answer. -/
theorem dispatchByWholeOpcode : Obligations.DispatchByWholeOpcode := by
  intro s hr hp
  constructor
  · intro o ho hop huniq
    exact step_of_lookup_some s hr hp (Config.lookup_eq_some_of_unique ho hop huniq)
  · intro hnone
    exact step_of_lookup_none s hr hp (Config.lookup_none.2 hnone)

end Sys2Proof.Machine
end

section
/-! PROOFS of 40_execution_loop.md: where a step is defined, and how the loop follows it (R88, R90). -/

namespace Sys2Proof.Machine

variable (s : State)

/-- What a fetch read always leads to a next state: the decoded instruction's, or the Unrecognized fault's. -/
theorem runFetched_next (w : Fetched) : ∃ t, runFetched w s = .next t := by
  cases hd : decode s.cfg w with
  | ok i => simpa [runFetched, hd] using exec_next s i
  | error e => simp [runFetched, hd, raise]

/-- A step is defined from every Running state, wherever pc stands. -/
theorem step_next_of_running (hr : s.status = .running) : ∃ t, step s = .next t := by
  by_cases hp : s.pc ≤ 253
  · rw [step_of_running s hr hp]
    exact runFetched_next s (bytesAtPc s)
  · exact ⟨_, step_of_running_beyond s hr (Nat.not_le.1 hp)⟩

/-- No step is defined from a faulted state. -/
theorem step_of_faulted {f : FaultRecord} (h : s.status = .faulted f) : step s = .fault (.stepWhenFaulted f) := by
  simp [step, h]

/-- A step asked for outside Running stops. -/
theorem step_fault_of_not_running (h : s.status ≠ .running) : ∃ f, step s = .fault f := by
  cases hs : s.status with
  | running => exact absurd hs h
  | halted => exact ⟨_, step_of_halted s hs⟩
  | faulted f => exact ⟨_, step_of_faulted s hs⟩

/-- The loop goes on from the next state of its first step. -/
theorem runLoop_succ_of_step_next {t : State} (h : step s = .next t) (n : Nat) :
    runLoop (n + 1) s = runLoop n t := by
  simp [runLoop, h]

/-- The loop stays where it is outside Running. -/
theorem runLoop_of_not_running (h : s.status ≠ .running) (n : Nat) : runLoop n s = s := by
  obtain ⟨f, hf⟩ := step_fault_of_not_running s h
  exact runLoop_of_step_fault s hf n

/-- Settles O11: by `step_next_of_running` and `runLoop_succ_of_step_next` in Running, and `step_cases` and
`runLoop_of_not_running` outside it. -/
theorem loopStepsExactlyWhileRunning : Obligations.LoopStepsExactlyWhileRunning := by
  refine ⟨fun s hr => ?_, fun s hs => ⟨fun t ht => ?_, runLoop_of_not_running s hs⟩⟩
  · obtain ⟨t, ht⟩ := step_next_of_running s hr
    exact ⟨t, ht, runLoop_succ_of_step_next s ht⟩
  · exact hs (step_cases s ht).1

/-- Settles O32: the state `execHlt_eq` answers is Halted, and there the loop stays. -/
theorem hltStopsPastItself : Obligations.HltStopsPastItself := fun s =>
  ⟨execHlt_eq s, runLoop_of_not_running _ (by simp)⟩

end Sys2Proof.Machine
end

section
/-! PROOFS of 43_alu.md: the ALU writes register ra alone, with the exact result's residue modulo 256 (R120, R124). -/

namespace Sys2Proof

/-- The residue modulo 256 written out is what `trunc8` keeps (00_scope.md R13). -/
theorem trunc8_eq_ofNat_mod (n : Nat) : trunc8 n = BitVec.ofNat 8 (n % 256) := by
  apply BitVec.eq_of_toNat_eq
  simp [trunc8]

end Sys2Proof

namespace Sys2Proof.Machine

theorem aluResult_add (x y : Byte) : aluResult .add x y = BitVec.ofNat 8 ((x.toNat + y.toNat) % 256) :=
  trunc8_eq_ofNat_mod _

theorem aluResult_mul (x y : Byte) : aluResult .mul x y = BitVec.ofNat 8 ((x.toNat * y.toNat) % 256) :=
  trunc8_eq_ofNat_mod _

/-- Whatever the operation, the ALU changes the register file at ra and no other field. -/
theorem alu_eq (o : AluOp) (ra rb : Fin 8) (s : State) :
    alu o ra rb s = { s with regs := s.regs.set ra.val (aluResult o s.regs[ra.val] s.regs[rb.val]) } := rfl

/-- The operation select is closed: the base operations and the extension's six. -/
theorem AluOp.base_or_extension (o : AluOp) :
    o = .add ∨ o = .mul ∨ o ∈ [AluOp.sub, .and, .or, .xor, .shl, .shr] := by
  cases o <;> decide

/-- Settles O31: the frame is `alu_eq`, the two results are `aluResult_add` and `aluResult_mul`. -/
theorem aluContract : Obligations.AluContract := by
  intro s ra rb
  refine ⟨?_, ?_, fun o => ⟨⟨_, alu_eq o ra rb s⟩, o.base_or_extension⟩⟩
  · rw [alu_eq, aluResult_add]
  · rw [alu_eq, aluResult_mul]

end Sys2Proof.Machine
end

section
/-! PROOFS of 30_encoding.md: decode and encode are inverse, which maps are admissible, and which bytes are illegal. -/

namespace Sys2Proof

/-- The enabled rows are listed once each. -/
theorem Config.enabled_nodup (c : Config) : c.enabled.Nodup := by
  unfold Config.enabled
  split <;> decide

/-- A byte encodes an operation's length exactly when its bits 7..6 count the operand bytes (R60). -/
theorem opLength_eq_length_iff (op : Byte) (o : Opcode) :
    opLength op = o.length ↔ op.toNat / 64 = o.format.operandCount := by
  rw [opLength_eq, Opcode.length, Nat.add_right_cancel_iff]

/-- What the check of a map means: distinct bytes, each with its row's operand count in bits 7..6 (R64). -/
theorem Config.admissible_iff (c : Config) : c.admissible = true ↔
    (∀ o ∈ c.enabled, ∀ p ∈ c.enabled, c.opcodeMap.byteOf o = c.opcodeMap.byteOf p → o = p) ∧
      ∀ o ∈ c.enabled, (c.opcodeMap.byteOf o).toNat / 64 = o.format.operandCount := by
  simp only [Config.admissible, Bool.and_eq_true, decide_eq_true_eq, List.all_eq_true, beq_iff_eq,
    opLength_eq_length_iff, List.nodup_map_iff_inj_on c.enabled_nodup]

/-- In an admissible configuration the lookup of an enabled operation's byte answers that operation. -/
theorem Config.lookup_byteOf {c : Config} (hc : c.admissible = true) {o : Opcode} (ho : o ∈ c.enabled) :
    c.lookup (c.opcodeMap.byteOf o) = some o := by
  obtain ⟨hinj, -⟩ := c.admissible_iff.1 hc
  exact Config.lookup_eq_some_of_unique ho rfl fun p hp h => hinj p hp o ho h

/-- An instruction is rebuilt from its operand bytes, whatever bytes follow them. -/
theorem Instr.toInstr_operandBytes (i : Instr) (x y : Byte) (rest : List Byte) :
    ∃ a b tail, i.operandBytes ++ x :: y :: rest = a :: b :: tail ∧ i.opcode.toInstr a b = i := by
  cases i <;> exact ⟨_, _, _, rfl, rfl⟩

/-- The operand bytes of what an operation makes are those its format counts. -/
theorem Opcode.toInstr_operandBytes (o : Opcode) (a b : Byte) :
    (o.toInstr a b).operandBytes = [a, b].take o.format.operandCount := by
  cases o <;> rfl

/-- An encoding is as long as its operation's format says, under any map. -/
theorem encode_length (m : OpcodeMap) (i : Instr) : (encode m i).length = i.opcode.length := by
  rw [encode, List.length_cons, Instr.operandBytes_length, Opcode.length]

/-- A format has at most two operand bytes. -/
theorem Format.operandCount_le_two (f : Format) : f.operandCount ≤ 2 := by
  cases f <;> decide

/-- No enabled operation of an admissible configuration has a byte of operand count 3. -/
theorem Config.lookup_of_count_three {c : Config} (hc : c.admissible = true) {op : Byte} (h : 0xC0 ≤ op.toNat) :
    c.lookup op = none := by
  rw [Config.lookup_none]
  rintro o ho rfl
  obtain ⟨-, hcount⟩ := c.admissible_iff.1 hc
  have h3 : 3 ≤ (c.opcodeMap.byteOf o).toNat / 64 := by omega
  have h2 := o.format.operandCount_le_two
  rw [hcount o ho] at h3
  omega

/-- In an admissible configuration the legal bytes are those of the enabled operations, each once. -/
theorem Config.legalBytes_perm {c : Config} (hc : c.admissible = true) :
    ((List.range 256).filter fun n => !(c.lookup (BitVec.ofNat 8 n)).isNone).Perm
      (c.enabled.map fun o => (c.opcodeMap.byteOf o).toNat) := by
  obtain ⟨hinj, -⟩ := c.admissible_iff.1 hc
  have hnodup : (c.enabled.map fun o => (c.opcodeMap.byteOf o).toNat).Nodup :=
    c.enabled_nodup.map_on fun o ho p hp h => hinj o ho p hp (BitVec.eq_of_toNat_eq h)
  rw [List.perm_ext_iff_of_nodup (List.nodup_range.filter _) hnodup]
  intro n
  simp only [List.mem_filter, List.mem_range, List.mem_map, Bool.not_eq_true', Option.isNone_eq_false_iff]
  constructor
  · rintro ⟨hn, hsome⟩
    obtain ⟨o, hl⟩ := Option.isSome_iff_exists.1 hsome
    obtain ⟨ho, hop⟩ := Config.lookup_some hl
    exact ⟨o, ho, by rw [hop, BitVec.toNat_ofNat, Nat.mod_eq_of_lt hn]⟩
  · rintro ⟨o, ho, rfl⟩
    refine ⟨(c.opcodeMap.byteOf o).isLt, ?_⟩
    rw [BitVec.ofNat_toNat, BitVec.setWidth_eq, Config.lookup_byteOf hc ho, Option.isSome_some]

/-- In an admissible configuration every byte but one for each enabled operation is illegal (R68). -/
theorem Config.illegalBytes_length {c : Config} (hc : c.admissible = true) :
    ((List.range 256).filter fun n => (c.lookup (BitVec.ofNat 8 n)).isNone).length = 256 - c.enabled.length := by
  have hsplit := (List.range 256).length_eq_length_filter_add fun n => (c.lookup (BitVec.ofNat 8 n)).isNone
  have hlegal := (Config.legalBytes_perm hc).length_eq
  rw [List.length_range] at hsplit
  rw [List.length_map] at hlegal
  omega

/-- The lookup found the operation of whatever decoded. -/
theorem lookup_of_decode_ok {c : Config} {w : Fetched} {i : Instr} (h : decode c w = .ok i) :
    c.lookup w.op = some i.opcode := by
  cases hl : c.lookup w.op with
  | none => cases (decode_of_lookup_none hl).symm.trans h
  | some o =>
    obtain rfl : o.toInstr w.a w.b = i := Except.ok.inj ((decode_of_lookup_some hl).symm.trans h)
    rw [Opcode.toInstr_opcode]

/-- Bytes are rejected only because the lookup finds no operation. -/
theorem lookup_of_decode_error {c : Config} {w : Fetched} {e : DecodeError} (h : decode c w = .error e) :
    c.lookup w.op = none := by
  cases hl : c.lookup w.op with
  | none => rfl
  | some o => cases (decode_of_lookup_some hl).symm.trans h

/-- Format F0 uses neither operand byte. -/
theorem Opcode.toInstr_of_f0 {o : Opcode} (h : o.format = .f0) (a b a' b' : Byte) :
    o.toInstr a' b' = o.toInstr a b := by
  cases o with
  | hlt | ret => rfl
  | _ => cases h

/-- Format F1R uses the first operand byte alone. -/
theorem Opcode.toInstr_of_f1r {o : Opcode} (h : o.format = .f1r) (a b b' : Byte) :
    o.toInstr a b' = o.toInstr a b := by
  cases o with
  | psh | pop | prn | call => rfl
  | _ => cases h

/-- The default map is admissible with the extension off and on. -/
theorem Config.default_admissible (ext : Bool) :
    ({ Config.default with aluExtension := ext } : Config).admissible = true := by
  cases ext <;> decide

/-- Every operation takes part in the lookup of the table's configuration. -/
theorem Config.mem_table_enabled (o : Opcode) : o ∈ Config.table.enabled := by
  cases o <;> decide

/-- The extension's default bytes are in no row while the extension is off. -/
theorem Config.default_lookup_of_extension_byte :
    ∀ op ∈ [0xA0, 0xA1, 0xA7, 0xA8, 0xAA, 0xAB, 0xAC, (0xAD : Byte)], Config.default.lookup op = none := by
  decide

/-- Settles O3: `lookup_byteOf` finds the operation, `toInstr_operandBytes` rebuilds it from the bytes read. -/
theorem decodeOfEncodeIsIdentity : Obligations.DecodeOfEncodeIsIdentity := by
  intro c i x y rest hc hi
  obtain ⟨a, b, tail, hbytes, hinstr⟩ := i.toInstr_operandBytes x y rest
  calc decodeBytes c (encode c.opcodeMap i ++ x :: y :: rest)
      = decode c ⟨c.opcodeMap.byteOf i.opcode, a, b⟩ := by rw [encode, List.cons_append, hbytes, decodeBytes]
    _ = .ok (i.opcode.toInstr a b) := decode_of_lookup_some (Config.lookup_byteOf hc hi)
    _ = .ok i := by rw [hinstr]

/-- Settles O1: `admissible_iff` is the first clause, and the encoding's length is what the default byte encodes since
the table's configuration is admissible. -/
theorem opcodeMapConstraints : Obligations.OpcodeMapConstraints := by
  refine ⟨Config.admissible_iff, Config.default_admissible, by decide, fun i => ?_⟩
  calc (OpcodeMap.default.byteOf i.opcode).toNat / 64 + 1
      = opLength (OpcodeMap.default.byteOf i.opcode) := (opLength_eq _).symm
    _ = i.opcode.length :=
      Config.opLength_byteOf (Config.default_admissible true) (Config.mem_table_enabled i.opcode)
    _ = (encode OpcodeMap.default i).length := (encode_length _ i).symm

/-- Settles O4: the operand bytes are the first `op >> 6` of the two read. -/
theorem encodeOfDecodeIsTheBytesRead : Obligations.EncodeOfDecodeIsTheBytesRead := by
  intro c w i hc h
  obtain ⟨-, hop, hi⟩ := decode_ok_cases h
  have hcount : i.opcode.format.operandCount = w.op.toNat / 64 := by
    rw [← Instr.operandBytes_length, decode_operandBytes_length hc h]
  have hbytes : i.operandBytes = [w.a, w.b].take (w.op.toNat / 64) := by
    rw [← hcount, ← Opcode.toInstr_operandBytes, ← hi]
  rw [encode, hop, hbytes, List.take_succ_cons]

/-- Settles O6: every clause is a fact about what the lookup answers; with eight rows enabled, `illegalBytes_length`
counts 248. -/
theorem illegalOpcodes : Obligations.IllegalOpcodes := by
  refine ⟨fun c w h => decode_of_lookup_none (Config.lookup_none.2 h), fun c w i h => ?_,
    fun s e hr hp h => Machine.step_of_lookup_none s hr hp (lookup_of_decode_error h),
    Config.illegalBytes_length (Config.default_admissible false), fun a b => ?_, fun op a b h => ?_, fun op hop a b => ?_⟩
  · obtain ⟨hi, hop, -⟩ := decode_ok_cases h
    exact ⟨i.opcode, hi, hop⟩
  · have hzero : Config.default.lookup 0x00 = none := by decide
    exact decode_of_lookup_none hzero
  · exact decode_of_lookup_none (Config.lookup_of_count_three (Config.default_admissible false) h)
  · exact decode_of_lookup_none (Config.default_lookup_of_extension_byte op hop)

/-- Settles O2: each word is looked up in the default table. -/
theorem defaultWordsDecode : Obligations.DefaultWordsDecode := by
  unfold Obligations.DefaultWordsDecode
  decide

/-- Settles O8: the lookup sees the opcode byte alone, and the format says which operand bytes are used. -/
theorem unusedOperandBytesAreIgnored : Obligations.UnusedOperandBytesAreIgnored := by
  intro c op a b a' b' i h
  have hl := lookup_of_decode_ok h
  obtain ⟨-, -, hi⟩ := decode_ok_cases h
  refine ⟨fun hf => ?_, fun hf => ?_⟩
  · rw [hi, ← Opcode.toInstr_of_f0 hf a b a' b']
    exact decode_of_lookup_some hl
  · rw [hi, ← Opcode.toInstr_of_f1r hf a b b']
    exact decode_of_lookup_some hl

end Sys2Proof
end

section
/-! PROOFS of 60_exceptions.md: a step takes the first fault its start state names, or else the effect of the decoded
instruction; every rule about what a step changes is read off these two cases. -/

namespace Sys2Proof.Machine

variable (s : State)

/-- Only an ill-formed instruction has a bad operand. -/
theorem badOperand_eq_none_iff (i : Instr) : badOperand i = none ↔ i.wellFormed = true := by
  refine ⟨fun h => ?_, badOperand_none⟩
  cases hw : i.wellFormed with
  | true => rfl
  | false =>
    obtain ⟨idx, hb, -⟩ := exec_illFormed State.reset hw
    cases h.symm.trans hb

/-- An instruction with a bad operand takes the fault of the first. -/
theorem exec_of_badOperand {i : Instr} {idx : Byte} (h : badOperand i = some idx) :
    exec i s = faultsWith (.badRegister idx s.pc) s := by
  cases hw : i.wellFormed with
  | true => cases (badOperand_none hw).symm.trans h
  | false =>
    obtain ⟨idx', hb, he⟩ := exec_illFormed s hw
    obtain rfl : idx' = idx := Option.some.inj (hb.symm.trans h)
    exact he

/-- In Running, bytes within memory that decode make the step their instruction's meaning. -/
theorem step_of_decode_ok {i : Instr} (hr : s.status = .running) (hp : s.pc ≤ 253)
    (hd : decode s.cfg (bytesAtPc s) = .ok i) : step s = exec i s := by
  simp [step_of_running s hr hp, runFetched, hd]

/-- The faults of the three reads: the first address beyond 255. -/
theorem firstFault_of_beyond (hp : 253 < s.pc) : firstFault s = some (.outOfRange (max s.pc 256)) := by
  unfold firstFault
  split
  · rw [show max s.pc 256 = s.pc by omega]
  · split
    · rw [show max s.pc 256 = s.pc + 1 by omega]
    · rw [if_pos (by omega), show max s.pc 256 = s.pc + 2 by omega]

theorem firstFault_of_decode_error {e : DecodeError} (hp : s.pc ≤ 253)
    (hd : decode s.cfg (bytesAtPc s) = .error e) :
    firstFault s = some (.unrecognized (bytesAtPc s).op s.pc s.regs) := by
  unfold firstFault
  rw [if_neg (by omega), if_neg (by omega), if_neg (by omega), hd]

theorem firstFault_of_decode_ok {i : Instr} (hp : s.pc ≤ 253) (hd : decode s.cfg (bytesAtPc s) = .ok i) :
    firstFault s = (badOperand i).map fun idx => .badRegister idx s.pc := by
  unfold firstFault
  rw [if_neg (by omega), if_neg (by omega), if_neg (by omega), hd]
  rfl

/-- Where the first fault comes from: the reads, the lookup, or the decoded instruction's operands. -/
theorem firstFault_cases :
    (253 < s.pc ∧ firstFault s = some (.outOfRange (max s.pc 256))) ∨
      (s.pc ≤ 253 ∧ s.cfg.lookup (bytesAtPc s).op = none ∧
        firstFault s = some (.unrecognized (bytesAtPc s).op s.pc s.regs)) ∨
      (s.pc ≤ 253 ∧ ∃ i, decode s.cfg (bytesAtPc s) = .ok i ∧
        firstFault s = (badOperand i).map fun idx => .badRegister idx s.pc) := by
  by_cases hp : s.pc ≤ 253
  · cases hd : decode s.cfg (bytesAtPc s) with
    | error e => exact .inr (.inl ⟨hp, lookup_of_decode_error hd, firstFault_of_decode_error s hp hd⟩)
    | ok i => exact .inr (.inr ⟨hp, i, rfl, firstFault_of_decode_ok s hp hd⟩)
  · exact .inl ⟨Nat.not_le.1 hp, firstFault_of_beyond s (Nat.not_le.1 hp)⟩

/-- No fault condition holds exactly when a well-formed instruction stands at pc. -/
theorem firstFault_eq_none_iff :
    firstFault s = none ↔ s.pc ≤ 253 ∧ ∃ i, decode s.cfg (bytesAtPc s) = .ok i ∧ i.wellFormed = true := by
  constructor
  · intro h
    obtain ⟨-, hf⟩ | ⟨-, -, hf⟩ | ⟨hp, i, hd, hf⟩ := firstFault_cases s
    · cases hf.symm.trans h
    · cases hf.symm.trans h
    · exact ⟨hp, i, hd, (badOperand_eq_none_iff i).1 (Option.map_eq_none_iff.1 (hf.symm.trans h))⟩
  · rintro ⟨hp, i, hd, hw⟩
    rw [firstFault_of_decode_ok s hp hd, badOperand_none hw, Option.map_none]

/-- A step raises the first fault condition that holds. -/
theorem step_of_firstFault_some {f : FaultRecord} (hr : s.status = .running) (h : firstFault s = some f) :
    step s = faultsWith f s := by
  obtain ⟨hp, hf⟩ | ⟨hp, hl, hf⟩ | ⟨hp, i, hd, hf⟩ := firstFault_cases s
  · obtain rfl := Option.some.inj (hf.symm.trans h)
    exact step_of_running_beyond s hr hp
  · obtain rfl := Option.some.inj (hf.symm.trans h)
    exact step_of_lookup_none s hr hp hl
  · obtain ⟨idx, hb, rfl⟩ := Option.map_eq_some_iff.1 (hf.symm.trans h)
    rw [step_of_decode_ok s hr hp hd, exec_of_badOperand s hb]

/-- When no fault condition holds, a step is the effect of the well-formed instruction at pc. -/
theorem step_of_firstFault_none {i : Instr} (hr : s.status = .running) (h : firstFault s = none)
    (hd : decode s.cfg (bytesAtPc s) = .ok i) : step s = .next (effect i s) := by
  obtain ⟨hp, j, hj, hw⟩ := (firstFault_eq_none_iff s).1 h
  obtain rfl : j = i := Except.ok.inj (hj.symm.trans hd)
  rw [step_of_decode_ok s hr hp hd, exec_wellFormed s hw]

/-- What a step's next state can be: the start state with its first fault recorded, or the effect of the well-formed
instruction at pc. -/
theorem step_fault_or_effect {t : State} (h : step s = .next t) :
    s.status = .running ∧
      ((∃ f, firstFault s = some f ∧ t = s.setStatus (.faulted f)) ∨
        (∃ i, firstFault s = none ∧ s.pc ≤ 253 ∧ decode s.cfg (bytesAtPc s) = .ok i ∧ t = effect i s)) := by
  obtain ⟨hr, -⟩ := step_cases s h
  refine ⟨hr, ?_⟩
  cases hf : firstFault s with
  | some f =>
    rw [step_of_firstFault_some s hr hf] at h
    exact .inl ⟨f, rfl, (Host.Outcome.next.inj h).symm⟩
  | none =>
    obtain ⟨hp, i, hd, -⟩ := (firstFault_eq_none_iff s).1 hf
    rw [step_of_firstFault_none s hr hf hd] at h
    exact .inr ⟨i, rfl, hp, hd, (Host.Outcome.next.inj h).symm⟩

/-- From Running, no effect is a fault. -/
theorem effect_not_faulted {i : Instr} (hr : s.status = .running) : ¬ (effect i s).Faulted := by
  rintro ⟨f, hf⟩
  rw [effect_status, hr] at hf
  split at hf <;> cases hf

/-- Settles O15: a fault condition is raised, and without one the step is an effect, which is no fault. -/
theorem stepFollowsFaultPriority : Obligations.StepFollowsFaultPriority := by
  intro s hr
  refine ⟨fun f h => step_of_firstFault_some s hr h, fun h => ?_, fun h => ?_⟩
  · obtain ⟨-, i, hd, -⟩ := (firstFault_eq_none_iff s).1 h
    exact ⟨_, step_of_firstFault_none s hr h hd, effect_not_faulted s hr⟩
  · obtain ⟨-, hf⟩ | ⟨-, -, hf⟩ | ⟨-, i, -, hf⟩ := firstFault_cases s
    · cases hf.symm.trans h
    · cases hf.symm.trans h
    · obtain ⟨idx, -, hidx⟩ := Option.map_eq_some_iff.1 (hf.symm.trans h)
      cases hidx

/-- Settles O14: by `step_fault_or_effect`, since no effect is a fault. -/
theorem faultsChangeOnlyStatus : Obligations.FaultsChangeOnlyStatus := by
  intro s t f h hf
  obtain ⟨hr, ⟨g, -, rfl⟩ | ⟨i, -, -, -, rfl⟩⟩ := step_fault_or_effect s h
  · obtain rfl : g = f := Status.faulted.inj hf
    rfl
  · exact absurd ⟨f, hf⟩ (effect_not_faulted s hr)

/-- Settles O9: this is `step_of_decode_ok`. -/
theorem stepRunsDecodedInstruction : Obligations.StepRunsDecodedInstruction :=
  fun s _ => step_of_decode_ok s

/-- Settles O10: the first address beyond 255 is 256 or pc itself. -/
theorem decodeBeyondMemoryFaults : Obligations.DecodeBeyondMemoryFaults := by
  intro s hr
  have hbeyond (hp : 253 < s.pc) : step s = faultsWith (.outOfRange (max s.pc 256)) s :=
    step_of_running_beyond s hr hp
  refine ⟨fun h => ?_, fun h => ?_, fun h => ?_⟩
  · rw [hbeyond (by omega), show max s.pc 256 = 256 by omega]
  · rw [hbeyond (by omega), show max s.pc 256 = 256 by omega]
  · rw [hbeyond (by omega), show max s.pc 256 = s.pc by omega]

/-- Settles O12: by `step_of_halted` and `step_of_faulted`. -/
theorem stepAfterTheEndStopsByName : Obligations.StepAfterTheEndStopsByName :=
  ⟨step_of_halted, fun s _ => step_of_faulted s⟩

/-- Settles O46: the operand is the first bad one of each instruction listed. -/
theorem badRegisterIsRaisedBeforeAnyWrite : Obligations.BadRegisterIsRaisedBeforeAnyWrite := by
  intro s a b
  refine ⟨fun i hi ha => exec_of_badOperand s ?_, fun i hi ha hb => exec_of_badOperand s ?_⟩
  · have hna : namesRegister a = false := decide_eq_false (Nat.not_lt.2 ha)
    obtain ⟨rest, hops⟩ : ∃ rest, i.registerOperands = a :: rest := by
      revert i
      simp [Instr.registerOperands]
    simp [badOperand, hops, hna]
  · have hna : namesRegister a = true := decide_eq_true ha
    have hnb : namesRegister b = false := decide_eq_false (Nat.not_lt.2 hb)
    have hops : i.registerOperands = [a, b] := by
      revert i
      simp [Instr.registerOperands]
    simp [badOperand, hops, hna, hnb]

end Sys2Proof.Machine
end

section
/-! PROOFS of 40_execution_loop.md section 5: the end of a run is unique. -/

namespace Sys2Proof.Machine

variable (s : State)

/-- Running the loop with more fuel goes on from where less fuel left it. -/
theorem runLoop_add (m n : Nat) : runLoop (m + n) s = runLoop n (runLoop m s) := by
  induction m generalizing s with
  | zero => rw [Nat.zero_add, runLoop]
  | succ m ih =>
    by_cases hr : s.status = .running
    · obtain ⟨t, ht⟩ := step_next_of_running s hr
      rw [Nat.add_right_comm, runLoop_succ_of_step_next s ht, runLoop_succ_of_step_next s ht, ih]
    · simp only [runLoop_of_not_running s hr]

/-- Once the loop has ended, more fuel changes nothing. -/
theorem runLoop_eq_of_le {m n : Nat} (h : m ≤ n) (hm : (runLoop m s).status ≠ .running) :
    runLoop n s = runLoop m s := by
  obtain ⟨k, rfl⟩ := Nat.exists_eq_add_of_le h
  rw [runLoop_add, runLoop_of_not_running _ hm]

/-- A run ends in at most one state. -/
theorem EndsIn.unique {s t u : State} (ht : EndsIn s t) (hu : EndsIn s u) : u = t := by
  obtain ⟨m, rfl, hm⟩ := ht
  obtain ⟨n, rfl, hn⟩ := hu
  rcases Nat.le_total m n with h | h
  · exact runLoop_eq_of_le s h hm
  · exact (runLoop_eq_of_le s h hn).symm

/-- Settles O13: a run that does not hang leaves Running, and `EndsIn.unique` says it does so in one state. -/
theorem runHangsOrEndsInOneState : Obligations.RunHangsOrEndsInOneState := by
  intro s
  by_cases h : Hangs s
  · refine .inl ⟨h, ?_⟩
    rintro t ⟨n, rfl, hn⟩
    exact hn (h n)
  · obtain ⟨n, hn⟩ := not_forall.1 h
    have hend : EndsIn s (runLoop n s) := ⟨n, rfl, hn⟩
    exact .inr ⟨h, _, hend, fun u hu => hend.unique hu⟩

end Sys2Proof.Machine
end

section
/-! PROOFS of the whole-machine rules: what the effect of an instruction leaves in each field, and the invariant every step
keeps. -/

namespace Sys2Proof.Machine

variable (s : State)

/-- The pc advance after a jump, in the mode of the machine (40_execution_loop.md R86). -/
theorem nextPc_jumpTo (mode : PcAdvanceMode) (pc len : Nat) (t : Byte) :
    nextPc mode pc len (.jumpTo t) = if mode = .preserve then t.toNat + len else t.toNat := by
  cases mode <;> rfl

/-- A jump leaves pc at most its own length beyond the last address. -/
theorem nextPc_jumpTo_le (mode : PcAdvanceMode) (pc len : Nat) (t : Byte) :
    nextPc mode pc len (.jumpTo t) ≤ 255 + len := by
  have ht := t.isLt
  rw [nextPc_jumpTo]
  split <;> omega

/-- An instruction that does not jump advances pc by its length (R87). -/
theorem effect_pc_of_not_jumps {i : Instr} (h : i.jumps = false) : (effect i s).pc = s.pc + i.opcode.length := by
  cases i with
  | ret | call => cases h
  | _ => rfl

/-- No instruction is longer than three bytes. -/
theorem opcode_length_le_three (o : Opcode) : o.length ≤ 3 :=
  Nat.succ_le_succ o.format.operandCount_le_two

/-- From any pc an instruction executes from, pc stays within 257 (10_state.md R26). -/
theorem effect_pc_le {i : Instr} (hp : s.pc ≤ 253) : (effect i s).pc ≤ 257 := by
  cases hj : i.jumps with
  | false =>
    have hlen := opcode_length_le_three i.opcode
    rw [effect_pc_of_not_jumps s hj]
    omega
  | true =>
    cases i with
    | ret => exact Nat.le_succ_of_le (nextPc_jumpTo_le _ s.pc 1 _)
    | call ra => exact nextPc_jumpTo_le _ s.pc 2 _
    | _ => cases hj

/-- Memory after an instruction: as before, or for PSH and CALL one byte written below SP. -/
theorem effect_mem_cases (i : Instr) :
    (effect i s).mem = s.mem ∨
      ∃ ra v, (i = .psh ra ∨ i = .call ra) ∧ (effect i s).mem = Memory.write s.mem (s.sp - 1).toNat v := by
  cases i with
  | psh ra => exact .inr ⟨ra, _, .inl rfl, rfl⟩
  | call ra => exact .inr ⟨ra, _, .inr rfl, rfl⟩
  | _ => exact .inl rfl

/-- An instruction keeps memory canonical. -/
theorem effect_mem_wf (i : Instr) (h : Memory.wf s.mem = true) : Memory.wf (effect i s).mem = true := by
  obtain hm | ⟨ra, v, -, hm⟩ := effect_mem_cases s i
  · rwa [hm]
  · rw [hm]
    exact Memory.write_wf v (s.sp - 1).isLt h

/-- Only CMP's effect writes fl. -/
theorem effect_fl_of_not_cmp {i : Instr} (h : ∀ ra rb, i ≠ .cmp ra rb) : (effect i s).fl = s.fl := by
  cases i with
  | cmp ra rb => exact absurd rfl (h ra rb)
  | _ => rfl

/-- A comparison leaves one of the three legal flag bytes. -/
theorem compareFlags_legal (x y : Byte) : compareFlags x y = 1 ∨ compareFlags x y = 2 ∨ compareFlags x y = 4 := by
  obtain ⟨-, h⟩ | ⟨-, h⟩ | ⟨-, h⟩ := compareFlags_cases x y <;> simp [h]

/-- An instruction leaves fl as it was or holding exactly one of E, G, L. -/
theorem effect_fl_cases (i : Instr) :
    (effect i s).fl = s.fl ∨ (effect i s).fl = 1 ∨ (effect i s).fl = 2 ∨ (effect i s).fl = 4 := by
  cases i with
  | cmp ra rb => exact .inr (compareFlags_legal _ _)
  | _ => exact .inl rfl

/-- PRN's effect appends its register to the trace. -/
theorem effect_prn_out (ra : Byte) : (effect (.prn ra) s).out = s.out ++ [s.reg (opReg ra)] := rfl

/-- Only PRN's effect touches the trace. -/
theorem effect_out_of_not_prn {i : Instr} (h : ∀ ra, i ≠ .prn ra) : (effect i s).out = s.out := by
  cases i with
  | prn ra => exact absurd rfl (h ra)
  | _ => rfl

/-- An ALU instruction writes ra alone. -/
theorem aluEffect_reg_other (o : AluOp) {ra rb : Byte} {q : Fin 8} (h : q ≠ opReg ra) :
    (aluEffect o ra rb s).reg q = s.reg q :=
  State.reg_setReg_other s h _

/-- A register that is neither the destination nor a moved SP keeps its value (10_state.md R22). -/
theorem effect_reg_other {i : Instr} {q : Fin 8} (hd : ∀ ra, i.destination = some ra → q ≠ opReg ra)
    (hsp : i.movesSp = true → q ≠ spIndex) : (effect i s).reg q = s.reg q := by
  cases i with
  | hlt | prn | cmp => rfl
  | ret | psh | call => exact State.reg_setReg_other s (hsp rfl) _
  | pop ra =>
    exact (State.reg_setReg_other _ (hd ra rfl) _).trans (State.reg_setReg_other s (hsp rfl) _)
  | ldi ra => exact State.reg_setReg_other s (hd ra rfl) _
  | mul ra | add ra | sub ra | and ra | or ra | xor ra | shl ra | shr ra =>
    exact aluEffect_reg_other s _ (hd ra rfl)

/-- A well-formed instruction's destination names a register. -/
theorem destination_namesRegister {i : Instr} {ra : Byte} (hw : i.wellFormed = true) (hd : i.destination = some ra) :
    ra.toNat < 8 := by
  cases i <;> simp_all [Instr.destination, Instr.wellFormed, namesRegister_iff]

/-- Neither fl nor the trace decides anything else an instruction leaves. -/
theorem effect_of_other_fl_out (i : Instr) (v : Byte) (o : List Byte) :
    effect i { s with fl := v, out := o } =
      { effect i s with
        fl := (effect i { s with fl := v, out := o }).fl
        out := (effect i { s with fl := v, out := o }).out } := by
  cases i <;> rfl

/-- Settles O18: a fault touches no field of the invariant, and an effect keeps each by its own lemma. -/
theorem stepKeepsInvariant : Obligations.StepKeepsInvariant := by
  rintro s t ⟨hmem, hpc, hfl, hcfg⟩ h
  obtain ⟨-, ⟨f, -, rfl⟩ | ⟨i, -, hp, -, rfl⟩⟩ := step_fault_or_effect s h
  · exact ⟨hmem, hpc, hfl, hcfg⟩
  · refine ⟨effect_mem_wf s i hmem, effect_pc_le s hp, ?_, by rwa [effect_cfg]⟩
    obtain heq | hlegal := effect_fl_cases s i
    · rwa [heq]
    · exact .inr hlegal

/-- Settles O17: memory is empty at reset and the default map is admissible. -/
theorem resetMeetsInvariant : Obligations.ResetMeetsInvariant where
  mem_wf := Memory.reset_wf
  pc_le := Nat.zero_le _
  fl_legal := .inl State.reset_fl
  admissible := Config.default_admissible false

/-- Settles O19: by `effect_cfg`. -/
theorem parametersNeverChange : Obligations.ParametersNeverChange := by
  intro s t h
  obtain ⟨-, ⟨f, -, rfl⟩ | ⟨i, -, -, -, rfl⟩⟩ := step_fault_or_effect s h
  · rfl
  · exact effect_cfg s i

/-- Settles O20: by `effect_prn_out` and `effect_out_of_not_prn`; a PRN of no register is ill formed. -/
theorem onlyPrnEmits : Obligations.OnlyPrnEmits := by
  intro i s t h
  obtain ⟨hw, rfl⟩ | ⟨hw, idx, -, rfl⟩ := exec_cases s h
  · refine ⟨?_, fun hne => effect_out_of_not_prn s ?_⟩
    · rintro ra hra rfl
      rw [effect_prn_out, opReg_eq hra]
      rfl
    · rintro ra rfl
      exact hne ra (namesRegister_iff.1 hw) rfl
  · refine ⟨?_, fun _ => rfl⟩
    rintro ra hra rfl
    cases (namesRegister_iff.2 hra).symm.trans hw

/-- Settles O21: by `effect_mem_cases` and read after write. -/
theorem onlyPushesWriteMemory : Obligations.OnlyPushesWriteMemory := by
  intro i s t hm h addr hne
  obtain ⟨-, rfl⟩ | ⟨-, idx, -, rfl⟩ := exec_cases s h
  · obtain hsame | ⟨ra, v, hi, hw⟩ := effect_mem_cases s i
    · exact absurd (by rw [hsame]) hne
    · refine ⟨?_, ra, hi⟩
      rw [hw, Memory.read_write _ _ _ hm] at hne
      exact of_not_not fun haddr => hne (if_neg haddr)
  · exact absurd rfl hne

/-- Settles O22: by `effect_reg_other`, of a well-formed instruction whose destination is a register. -/
theorem onlyDestinationAndSpChange : Obligations.OnlyDestinationAndSpChange := by
  intro i s t h q hne
  obtain ⟨hw, rfl⟩ | ⟨-, idx, -, rfl⟩ := exec_cases s h
  · by_contra hno
    obtain ⟨hdest, hsp⟩ := not_or.1 hno
    refine hne (effect_reg_other s (fun ra hra hq => hdest ?_) fun hmoves hq => hsp ⟨hq, hmoves⟩)
    rw [hra, hq, opReg_eq (destination_namesRegister hw hra), Option.map_some]
  · exact absurd rfl hne

/-- Settles O23: by `effect_fl_of_not_cmp`. -/
theorem onlyCmpWritesFlags : Obligations.OnlyCmpWritesFlags := by
  intro i s t h hne
  obtain ⟨-, rfl⟩ | ⟨-, idx, -, rfl⟩ := exec_cases s h
  · by_contra hno
    exact hne (effect_fl_of_not_cmp s fun ra rb hi => hno ⟨ra, rb, hi⟩)
  · exact absurd rfl hne

/-- With the extension off only the base instructions decode (43_alu.md, decision D13). -/
theorem decode_ok_base {c : Config} {w : Fetched} {i : Instr} (hc : c.aluExtension = false)
    (h : decode c w = .ok i) : i.opcode ∈ Opcode.base := by
  obtain ⟨hi, -, -⟩ := decode_ok_cases h
  rwa [Config.enabled, if_neg (by simp [hc])] at hi

/-- Settles O24: CMP, the one instruction that writes fl, is none of the base instructions. -/
theorem baseCoreHasNoExtension : Obligations.BaseCoreHasNoExtension := by
  refine ⟨fun c w i hc h => decode_ok_base hc h, fun s t hc h => ?_⟩
  obtain ⟨-, ⟨f, -, rfl⟩ | ⟨i, -, -, hd, rfl⟩⟩ := step_fault_or_effect s h
  · rfl
  · refine effect_fl_of_not_cmp s ?_
    rintro ra rb rfl
    exact absurd (decode_ok_base hc hd) (by decide : Opcode.cmp ∉ Opcode.base)

/-- Settles O25: by `effect_pc_of_not_jumps`. -/
theorem ordinaryInstructionsAdvanceByLength : Obligations.OrdinaryInstructionsAdvanceByLength := by
  intro i s m hw hj
  exact ⟨_, exec_wellFormed s hw, by rw [effect_pc_of_not_jumps s hj, encode_length]⟩

/-- Settles O26: the first fault of the changed state is that of the state itself, and so is the effect but for fl and the
trace. -/
theorem flagsAndOutputAreNeverRead : Obligations.FlagsAndOutputAreNeverRead := by
  intro s t v o h
  have hfirst : firstFault { s with fl := v, out := o } = firstFault s := rfl
  obtain ⟨hr, ⟨f, hf, rfl⟩ | ⟨i, hf, -, hd, rfl⟩⟩ := step_fault_or_effect s h
  · exact ⟨_, step_of_firstFault_some _ hr (hfirst.trans hf), rfl, rfl, rfl, rfl, rfl⟩
  · refine ⟨_, step_of_firstFault_none _ hr (hfirst.trans hf) hd, ?_⟩
    rw [effect_of_other_fl_out]
    exact ⟨rfl, rfl, rfl, rfl, rfl⟩

end Sys2Proof.Machine
end

section
/-! PROOFS of 20_memory.md and of the stack engine of 44_stack.md: a write and its frame, what canonical memories hold, push
and pop. -/

namespace Sys2Proof.Machine

variable (s : State)

/-- A checked write beyond memory. -/
theorem memWrite_error {addr : Nat} (h : ¬ addr < 256) (v : Byte) :
    memWrite addr v s = .error (.outOfRange addr) := by
  simp [memWrite, memSize, h]

/-- A listed byte of a canonical memory lies at or above its lower bound. -/
theorem Memory.le_of_read_ne_unlisted {lo addr : Nat} {m : Memory} (hm : Memory.wfFrom lo m = true)
    (h : Memory.read m addr ≠ Memory.unlisted) : lo ≤ addr :=
  Nat.not_lt.1 fun hlt => h (Memory.read_below hlt hm)

@[simp] theorem Memory.read_cons_same (k : Nat) (v : Byte) (m : Memory) : Memory.read ((k, v) :: m) k = v := by
  simp [Memory.read]

theorem Memory.read_cons_other {k addr : Nat} (h : k ≠ addr) (v : Byte) (m : Memory) :
    Memory.read ((k, v) :: m) addr = Memory.read m addr := by
  simp [Memory.read, h]

/-- The first cell of a canonical memory stands at or below every address another such memory lists, if both read the
same. -/
theorem Memory.head_le_of_read_eq {k k' : Nat} {lo : Nat} {v v' : Byte} {m m' : Memory}
    (hm : Memory.wfFrom lo ((k, v) :: m) = true) (hv' : v' ≠ Memory.unlisted)
    (h : Memory.read ((k, v) :: m) k' = Memory.read ((k', v') :: m') k') : k ≤ k' := by
  obtain ⟨-, hk, hv, hrest⟩ := (Memory.wfFrom_cons lo k v m).1 hm
  have hfrom : Memory.wfFrom k ((k, v) :: m) = true := (Memory.wfFrom_cons k k v m).2 ⟨le_refl k, hk, hv, hrest⟩
  refine Memory.le_of_read_ne_unlisted hfrom ?_
  rwa [h, Memory.read_cons_same]

/-- Extensionality of the canonical form, from any lower bound: the first cells agree, and then the rests do. -/
theorem Memory.eq_of_read_eq {lo : Nat} {m m' : Memory} (hm : Memory.wfFrom lo m = true)
    (hm' : Memory.wfFrom lo m' = true) (h : ∀ addr, Memory.read m addr = Memory.read m' addr) : m = m' := by
  induction m generalizing lo m' with
  | nil =>
    cases m' with
    | nil => rfl
    | cons c' rest' =>
      obtain ⟨k', v'⟩ := c'
      obtain ⟨-, -, hv', -⟩ := (Memory.wfFrom_cons lo k' v' rest').1 hm'
      exact absurd ((Memory.read_cons_same k' v' rest').symm.trans (h k').symm) hv'
  | cons c rest ih =>
    obtain ⟨k, v⟩ := c
    obtain ⟨-, -, hv, hrest⟩ := (Memory.wfFrom_cons lo k v rest).1 hm
    cases m' with
    | nil => exact absurd ((Memory.read_cons_same k v rest).symm.trans (h k)) hv
    | cons c' rest' =>
      obtain ⟨k', v'⟩ := c'
      obtain ⟨-, -, hv', hrest'⟩ := (Memory.wfFrom_cons lo k' v' rest').1 hm'
      obtain rfl : k = k' :=
        le_antisymm (Memory.head_le_of_read_eq hm hv' (h k')) (Memory.head_le_of_read_eq hm' hv (h k).symm)
      obtain rfl : v = v' := by simpa using h k
      rw [ih hrest hrest' fun addr => ?_]
      by_cases hk : k = addr
      · subst hk
        rw [Memory.read_below (Nat.lt_succ_self k) hrest, Memory.read_below (Nat.lt_succ_self k) hrest']
      · rw [← Memory.read_cons_other hk v, h addr, Memory.read_cons_other hk]

/-- Decrementing SP wraps modulo 256 (44_stack.md R130, decision D6). -/
theorem toNat_pred (x : Byte) : (x - 1).toNat = (x.toNat + 255) % 256 := by
  bv_omega

/-- Incrementing SP wraps modulo 256 (44_stack.md R131, decision D6). -/
theorem toNat_succ (x : Byte) : (x + 1).toNat = (x.toNat + 1) % 256 := by
  bv_omega

/-- Settles O28: by `memWrite_ok` with `Memory.write_wf` and `Memory.read_write`, and `memWrite_error`. -/
theorem memWriteContract : Obligations.MemWriteContract := by
  intro s addr v hm
  refine ⟨fun h => ?_, fun h => memWrite_error s (Nat.not_lt_of_ge h) v⟩
  have haddr : addr < 256 := Nat.lt_succ_of_le h
  exact ⟨_, memWrite_ok s haddr v, Memory.write_wf v haddr hm, fun b => Memory.read_write addr b v hm⟩

/-- Settles O29: this is `Memory.eq_of_read_eq` from address 0. -/
theorem canonicalMemoriesAreEqualWhenReadsAgree : Obligations.CanonicalMemoriesAreEqualWhenReadsAgree :=
  fun _ _ => Memory.eq_of_read_eq

/-- Settles O30: by `push_eq` and `pop_eq`. -/
theorem stackEngineWrapsAndNeverFaults : Obligations.StackEngineWrapsAndNeverFaults := by
  intro s v hm
  exact ⟨⟨_, _, push_eq s v, toNat_pred s.sp, fun b => Memory.read_write _ b v hm⟩,
    ⟨_, pop_eq s, toNat_succ s.sp⟩⟩

end Sys2Proof.Machine
end

section
/-! PROOFS of 42_register_and_output.md, 43_alu.md and 46_alu_extension.md: the result of each instruction and its frame. -/

namespace Sys2Proof

@[simp] theorem trunc8_toNat (n : Nat) : (trunc8 n).toNat = n % 256 := BitVec.toNat_ofNat n 8

end Sys2Proof

namespace Sys2Proof.Machine

/-! ## What the ALU computes -/

theorem aluResult_add_toNat (x y : Byte) : (aluResult .add x y).toNat = (x.toNat + y.toNat) % 256 := trunc8_toNat _

theorem aluResult_mul_toNat (x y : Byte) : (aluResult .mul x y).toNat = (x.toNat * y.toNat) % 256 := trunc8_toNat _

/-- The difference's least residue, of integers. -/
theorem aluResult_sub_toNat (x y : Byte) :
    ((aluResult .sub x y).toNat : Int) = ((x.toNat : Int) - (y.toNat : Int)) % 256 := by
  rw [aluResult, BitVec.toNat_ofInt]
  exact Int.toNat_of_nonneg (Int.emod_nonneg _ (by decide))

theorem aluResult_shl_toNat (x y : Byte) : (aluResult .shl x y).toNat = (x.toNat * 2 ^ y.toNat) % 256 := trunc8_toNat _

/-- A quotient of a byte is a byte. -/
theorem aluResult_shr_toNat (x y : Byte) : (aluResult .shr x y).toNat = x.toNat / 2 ^ y.toNat := by
  rw [aluResult, trunc8_toNat]
  exact Nat.mod_eq_of_lt ((Nat.div_le_self _ _).trans_lt x.isLt)

/-- A count of 8 or more shifts every bit out to the left (decision D26). -/
theorem aluResult_shl_of_le {x y : Byte} (h : 8 ≤ y.toNat) : aluResult .shl x y = 0 := by
  apply BitVec.eq_of_toNat_eq
  have hdvd : 256 ∣ x.toNat * 2 ^ y.toNat := Dvd.dvd.mul_left (pow_dvd_pow 2 h) _
  rw [aluResult_shl_toNat, Nat.mod_eq_zero_of_dvd hdvd]
  rfl

/-- A count of 8 or more shifts every bit out to the right (decision D26). -/
theorem aluResult_shr_of_le {x y : Byte} (h : 8 ≤ y.toNat) : aluResult .shr x y = 0 := by
  apply BitVec.eq_of_toNat_eq
  have hlt : x.toNat < 2 ^ y.toNat := x.isLt.trans_le (Nat.pow_le_pow_right (by decide) h)
  rw [aluResult_shr_toNat, Nat.div_eq_of_lt hlt]
  rfl

/-- A flag bit is bit 0 alone. -/
theorem flagBit_getLsbD (p : Bool) (k : Nat) : (flagBit p).getLsbD k = (decide (k = 0) && p) := by
  cases p <;> simp [flagBit]

/-- Every bit of the flag byte: 2 is less, 1 greater, 0 equal, and the others are 0 (46_alu_extension.md R160). -/
theorem compareFlags_getLsbD (x y : Byte) (k : Nat) :
    (compareFlags x y).getLsbD k =
      (decide (k = 2) && decide (x.toNat < y.toNat) || decide (k = 1) && decide (x.toNat > y.toNat) ||
        decide (k = 0) && decide (x.toNat = y.toNat)) := by
  simp only [compareFlags, BitVec.getLsbD_or, BitVec.getLsbD_shiftLeft, flagBit_getLsbD]
  rcases k with _ | _ | _ | k <;> simp

theorem compareFlags_less (x y : Byte) : (compareFlags x y).getLsbD 2 = decide (x.toNat < y.toNat) := by
  rw [compareFlags_getLsbD]
  simp

theorem compareFlags_greater (x y : Byte) : (compareFlags x y).getLsbD 1 = decide (x.toNat > y.toNat) := by
  rw [compareFlags_getLsbD]
  simp

theorem compareFlags_equal (x y : Byte) : (compareFlags x y).getLsbD 0 = decide (x.toNat = y.toNat) := by
  rw [compareFlags_getLsbD]
  simp

theorem compareFlags_high (x y : Byte) {k : Nat} (h : 3 ≤ k) : (compareFlags x y).getLsbD k = false := by
  have h2 : k ≠ 2 := by omega
  have h1 : k ≠ 1 := by omega
  have h0 : k ≠ 0 := by omega
  simp [compareFlags_getLsbD, h2, h1, h0]

/-! ## The instructions -/

/-- Settles O33: this is `execLdi_ok`. -/
theorem ldiLoadsLiteral : Obligations.LdiLoadsLiteral :=
  fun s _ imm h => execLdi_ok s imm h

/-- Settles O34: this is `execPrn_ok`. -/
theorem prnEmitsRegister : Obligations.PrnEmitsRegister :=
  fun s _ h => execPrn_ok s h

/-- Settles O35: by `aluHandler_ok` and `aluResult_mul_toNat`. -/
theorem mulWrapsModulo256 : Obligations.MulWrapsModulo256 :=
  fun s _ _ ha hb => ⟨_, aluHandler_ok s .mul ha hb, aluResult_mul_toNat _ _⟩

/-- Settles O36: by `aluHandler_ok` and `aluResult_add_toNat`. -/
theorem addWrapsModulo256 : Obligations.AddWrapsModulo256 :=
  fun s _ _ ha hb => ⟨_, aluHandler_ok s .add ha hb, aluResult_add_toNat _ _⟩

/-- Settles O37: by `aluHandler_ok` and `aluResult_sub_toNat`. -/
theorem subWrapsModulo256 : Obligations.SubWrapsModulo256 :=
  fun s _ _ ha hb => ⟨_, aluHandler_ok s .sub ha hb, aluResult_sub_toNat _ _⟩

/-- Settles O38: the three results are the words' own bitwise operations. -/
theorem logicWorksBitByBit : Obligations.LogicWorksBitByBit :=
  fun s _ _ ha hb =>
    ⟨⟨_, aluHandler_ok s .and ha hb, fun _ => BitVec.getLsbD_and⟩,
      ⟨_, aluHandler_ok s .or ha hb, fun _ => BitVec.getLsbD_or⟩,
      ⟨_, aluHandler_ok s .xor ha hb, fun _ => BitVec.getLsbD_xor⟩⟩

/-- Settles O39: by `aluHandler_ok`, `aluResult_shl_toNat` and `aluResult_shl_of_le`. -/
theorem shlShiftsByWholeCount : Obligations.ShlShiftsByWholeCount :=
  fun s _ _ ha hb => ⟨_, aluHandler_ok s .shl ha hb, aluResult_shl_toNat _ _, aluResult_shl_of_le⟩

/-- Settles O40: by `aluHandler_ok`, `aluResult_shr_toNat` and `aluResult_shr_of_le`. -/
theorem shrShiftsByWholeCount : Obligations.ShrShiftsByWholeCount :=
  fun s _ _ ha hb => ⟨_, aluHandler_ok s .shr ha hb, aluResult_shr_toNat _ _, aluResult_shr_of_le⟩

/-- Settles O41: `compareFlags_getLsbD` gives each bit, `compareFlags_legal` the three bytes. -/
theorem cmpSetsExactlyOneFlag : Obligations.CmpSetsExactlyOneFlag := by
  intro s ra rb ha hb
  exact ⟨_, execCmp_ok s ha hb, compareFlags_less _ _, compareFlags_greater _ _, compareFlags_equal _ _,
    fun k hk => compareFlags_high _ _ hk, compareFlags_legal _ _⟩

end Sys2Proof.Machine
end

section
/-! PROOFS of 44_stack.md and 45_control_transfer.md: PSH, POP, CALL, RET and the sequences made of them. -/

namespace Sys2Proof.Machine

/-- At every pc an instruction executes from, the byte CALL pushes is exactly pc + 2 (decision D7). -/
theorem returnAddress_toNat {pc : Nat} (h : pc ≤ 253) : (returnAddress pc).toNat = pc + 2 := by
  rw [returnAddress, trunc8_toNat]
  omega

/-- Settles O42: by `execPsh_ok` and read after write. -/
theorem pshStoresBelowSp : Obligations.PshStoresBelowSp :=
  fun s _ h hm => ⟨_, execPsh_ok s h, fun addr => Memory.read_write _ addr _ hm⟩

/-- Settles O43: this is `execPop_ok`. -/
theorem popLoadsFromSp : Obligations.PopLoadsFromSp :=
  fun s _ h => execPop_ok s h

/-- Settles O44: by `execCall_ok`, with the pc of `nextPc_jumpTo` and read after write. -/
theorem callPushesReturnAddressAndJumps : Obligations.CallPushesReturnAddressAndJumps := by
  intro s ra h hm
  refine ⟨Memory.write s.mem (s.sp - 1).toNat (returnAddress s.pc), ?_, fun addr hne => ?_, fun hp => ?_⟩
  · rw [exec, execCall_ok s h, nextPc_jumpTo]
    rfl
  · exact (Memory.read_write _ addr _ hm).trans (if_neg hne)
  · rw [← returnAddress_toNat hp]
    exact congrArg BitVec.toNat ((Memory.read_write _ _ _ hm).trans (if_pos rfl))

/-- Settles O45: by `execRet_eq`, with the pc of `nextPc_jumpTo`. -/
theorem retPopsTargetAndJumps : Obligations.RetPopsTargetAndJumps := by
  intro s
  rw [exec, execRet_eq, nextPc_jumpTo]
  rfl

/-- Settles O47: PRN reads the register LDI wrote. -/
theorem ldiThenPrnEmitsLiteral : Obligations.LdiThenPrnEmitsLiteral := by
  intro s ra imm h
  refine ⟨_, _, ldiLoadsLiteral s ra imm h, prnEmitsRegister _ ra h, ?_⟩
  rw [Vector.getElem_set_self]

/-- Settles O48: POP reads the byte PSH wrote, and SP is back. -/
theorem pshThenPopIsIdentity : Obligations.PshThenPopIsIdentity := by
  intro s ra h hm
  obtain ⟨m, hpsh, hread⟩ := pshStoresBelowSp s ra h hm
  refine ⟨_, _, hpsh, popLoadsFromSp _ ra h, ?_, fun addr hne => ?_⟩
  · have hbyte : Memory.read m (s.regs[7] - 1).toNat = s.regs[ra.toNat] := (hread _).trans (if_pos rfl)
    simp only [Vector.getElem_set_self, hbyte, BitVec.sub_add_cancel, Vector.set_set, Vector.set_getElem_self]
  · exact (hread addr).trans (if_neg hne)

/-- Settles O49: RET pops the byte CALL pushed, from where CALL left SP. -/
theorem callRetRoundTrip : Obligations.CallRetRoundTrip := by
  intro s t u ra h hm hp hcall hsp hbyte hmode
  obtain ⟨m, hexec, -, hret⟩ := callPushesReturnAddressAndJumps s ra h hm
  obtain rfl := Host.Outcome.next.inj (hexec.symm.trans hcall)
  simp only [Vector.getElem_set_self] at hsp hbyte
  have hpc : (Memory.read u.mem u.regs[7].toNat).toNat = s.pc + 2 := by rw [hbyte, hret hp]
  refine ⟨?_, _, retPopsTargetAndJumps u, ?_, fun hc => ?_, fun hpr => ?_⟩
  · have hra : ra = 7 ↔ 7 = ra.toNat := by rw [← BitVec.toNat_inj, eq_comm]; rfl
    simp only [Vector.getElem_set, hra]
  · simp [hsp]
  · simp [hmode, hc, hpc]
  · simp [hmode, hpr, hpc]

/-- Settles O50: the fetch after PSH reads the byte PSH wrote. -/
theorem pushedByteIsTheNextOpcode : Obligations.PushedByteIsTheNextOpcode := by
  intro s ra h hm hp hsp
  obtain ⟨m, hpsh, hread⟩ := pshStoresBelowSp s ra h hm
  refine ⟨_, _, hpsh, fetch_ok _ (Nat.add_le_add_right hp 2), ?_⟩
  exact (hread _).trans (if_pos hsp.symm)

end Sys2Proof.Machine
end

section
/-! PROOFS of 70_reset_and_hazards.md and of the block's ports (10_state.md R35): reset, image load, and what a session is. -/

namespace Sys2Proof.Machine

/-- Bytes written one after another read back at their addresses, and every other address reads as before. -/
theorem Memory.read_writeAll {m : Memory} (hm : Memory.wf m = true) {start : Nat} {bytes : List Byte}
    (h : start + bytes.length ≤ 256) (addr : Nat) :
    Memory.read (Memory.writeAll m start bytes) addr =
      if start ≤ addr then bytes.getD (addr - start) (Memory.read m addr) else Memory.read m addr := by
  induction bytes generalizing m start with
  | nil => simp [Memory.writeAll]
  | cons v rest ih =>
    rw [List.length_cons] at h
    rw [Memory.writeAll, ih (Memory.write_wf v (by omega) hm) (by omega), Memory.read_write _ _ _ hm]
    obtain hlt | rfl | hgt := Nat.lt_trichotomy addr start
    · rw [if_neg (by omega), if_neg hlt.ne, if_neg (by omega)]
    · simp
    · have hsub : addr - start = (addr - (start + 1)) + 1 := by omega
      rw [if_pos (Nat.succ_le_of_lt hgt), if_neg hgt.ne', if_pos hgt.le, hsub, List.getD_cons_succ]

/-- Before the start an image that fits is taken (R223). -/
theorem Block.loadImage_beforeStart (s : State) {img : List Byte} (h : img.length ≤ 256) :
    Block.loadImage img ⟨.beforeStart, s⟩ = .next ⟨.beforeStart, s.withImage img⟩ := by
  simp [Block.loadImage, memSize, h]

theorem Block.loadImage_oversized (s : State) {img : List Byte} (h : 256 < img.length) :
    Block.loadImage img ⟨.beforeStart, s⟩ = .refused (.oversizedImage img.length) := by
  simp [Block.loadImage, memSize, h]

/-- Once started, the block's step is the CORE's. -/
theorem Block.step_stepping_next {s t : State} (h : Machine.step s = .next t) :
    Block.step ⟨.stepping, s⟩ = .next ⟨.stepping, t⟩ := by
  simp [Block.step, h]

theorem Block.step_stepping_fault {s : State} {f : Fault} (h : Machine.step s = .fault f) :
    Block.step ⟨.stepping, s⟩ = .fault f := by
  simp [Block.step, h]

/-- A sequence of moves succeeds when its first does, and the rest from there. -/
theorem Block.moves_cons {m : BlockMove} {rest : List BlockMove} {b b' : Block}
    (h : Block.moves (m :: rest) b = .next b') : ∃ c, b.move m = .next c ∧ Block.moves rest c = .next b' := by
  rw [Block.moves] at h
  cases hm : b.move m with
  | next c => exact ⟨c, rfl, by rwa [hm] at h⟩
  | fault f => rw [hm] at h; cases h
  | refused r => rw [hm] at h; cases h

/-- Once started, a block only steps, and stands where the loop stands after as many steps. -/
theorem Block.moves_stepping {ms : List BlockMove} {s : State} {b : Block}
    (h : Block.moves ms ⟨.stepping, s⟩ = .next b) :
    ∃ n, ms = List.replicate n .step ∧ b = ⟨.stepping, runLoop n s⟩ := by
  induction ms generalizing s with
  | nil => exact ⟨0, rfl, (Host.Outcome.next.inj h).symm⟩
  | cons m rest ih =>
    obtain ⟨c, hmove, hrest⟩ := Block.moves_cons h
    obtain ⟨hph, -⟩ | ⟨hph, -⟩ | ⟨-, rfl, t, ht, rfl⟩ := Block.move_cases hmove
    · cases hph
    · cases hph
    · obtain ⟨n, rfl, rfl⟩ := ih hrest
      exact ⟨n + 1, rfl, by rw [runLoop_succ_of_step_next s ht]⟩

/-- Before its start, a block takes image loads, and then either nothing more or a start and steps. -/
theorem Block.moves_beforeStart {ms : List BlockMove} {s : State} {b : Block}
    (h : Block.moves ms ⟨.beforeStart, s⟩ = .next b) :
    ∃ (imgs : List (List Byte)) (n : Nat), (∀ img ∈ imgs, img.length ≤ 256) ∧
      ((ms = imgs.map .loadImage ∧ b = ⟨.beforeStart, imgs.foldl (fun s img => s.withImage img) s⟩) ∨
        (ms = imgs.map .loadImage ++ .start :: List.replicate n .step ∧
          b = ⟨.stepping, runLoop n (imgs.foldl (fun s img => s.withImage img) s)⟩)) := by
  induction ms generalizing s with
  | nil => exact ⟨[], 0, by simp, .inl ⟨rfl, (Host.Outcome.next.inj h).symm⟩⟩
  | cons m rest ih =>
    obtain ⟨c, hmove, hrest⟩ := Block.moves_cons h
    obtain ⟨-, img, rfl, himg, rfl⟩ | ⟨-, rfl, rfl⟩ | ⟨hph, -⟩ := Block.move_cases hmove
    · obtain ⟨imgs, n, hsize, hcases⟩ := ih hrest
      refine ⟨img :: imgs, n, List.forall_mem_cons.2 ⟨himg, hsize⟩, ?_⟩
      obtain ⟨rfl, rfl⟩ | ⟨rfl, rfl⟩ := hcases
      · exact .inl ⟨rfl, rfl⟩
      · exact .inr ⟨rfl, rfl⟩
    · obtain ⟨n, rfl, rfl⟩ := Block.moves_stepping hrest
      exact ⟨[], n, by simp, .inr ⟨rfl, rfl⟩⟩
    · cases hph

/-- Settles O51: R0 to R6 are read off the register file, memory is empty. -/
theorem resetStateValues : Obligations.ResetStateValues :=
  ⟨by decide, rfl, rfl, fun _ => rfl, rfl, rfl, rfl⟩

/-- Settles O52: `Memory.read_writeAll` from address 0 of an empty memory. -/
theorem imageLoad : Obligations.ImageLoad := by
  intro c img
  refine ⟨fun h => ?_, Block.loadImage_oversized (State.resetWith c)⟩
  have hreset : Memory.wf (State.resetWith c).mem = true := Memory.reset_wf
  refine ⟨_, Block.loadImage_beforeStart (State.resetWith c) h, State.withImage_wf _ h hreset, fun addr => ?_⟩
  exact (Memory.read_writeAll hreset (by omega) addr).trans (if_pos (Nat.zero_le addr))

/-- Settles O53: each port is taken in its phase and refused in the other. -/
theorem portsActOnlyInTheirPhase : Obligations.PortsActOnlyInTheirPhase := by
  refine ⟨?_, ?_⟩
  · rintro ⟨ph, s⟩ img rfl
    exact ⟨fun h => ⟨_, Block.loadImage_beforeStart s h, rfl⟩, rfl, rfl⟩
  · rintro ⟨ph, s⟩ img rfl
    exact ⟨rfl, rfl, fun _ => Block.step_stepping_next, fun _ => Block.step_stepping_fault⟩

/-- Settles O54: this is `Block.moves_beforeStart` of a fresh block. -/
theorem sessionsLoadThenStartThenStep : Obligations.SessionsLoadThenStartThenStep :=
  fun _ _ _ => Block.moves_beforeStart

end Sys2Proof.Machine
end
